-- ==== Sys2Proof/Word.lean ====
section
/-! DEFINITION. The machine's data widths: the 16-bit word of every register, cell, address and
instruction (00_scope.md R7, R9), the 8-bit byte of an image stream (70_reset_and_hazards.md R205), and the
3-bit register index (30_encoding.md R73). -/

namespace Sys2Proof

/-- A register value, memory value, address or instruction: a 16-bit pattern, with arithmetic mod 2^16
(00_scope.md R9, R10). -/
abbrev Word := BitVec 16

/-- A byte of an image stream (70_reset_and_hazards.md R205). -/
abbrev Byte := BitVec 8

/-- A register index field: the field's unsigned value i names Ri (30_encoding.md R73, R85). -/
abbrev Reg := BitVec 3

end Sys2Proof
end

