-- ==== Sys2Proof/Config.lean ====
section
/-! DEFINITION. The open parameters of 00_scope.md R8, as one record that host moves take as an argument, the values
`State.reset` and the loader's default use, and the free values of what the spec leaves at `any value`. -/

namespace Sys2Proof.Config

/-- The three open parameters of one machine instance (00_scope.md R8). No CPU step depends on any of them. -/
structure Params where
  /-- R0 to R7 at construction and after reset: open, decision D7. -/
  gprInit : Vector Word 8
  /-- The bound of the loader's capacity check: decision D13. -/
  loaderLimit : Nat
  /-- The most steps the host runs in one batch: open, decision D17. -/
  batchQuota : Nat
  deriving DecidableEq, Repr

/-- The parameter values the spec allows: `BATCH_QUOTA >= 1` (D17), and a loader bound that is one of the two readings
or below (D13: 0xFFFF, or 0x10000, the size of the address space). -/
abbrev Params.wf (p : Params) : Prop := 1 ≤ p.batchQuota ∧ p.loaderLimit ≤ 0x10000

/-- The register contents of `State.reset`. DESIGN CHOICE, unsafe (log 3): the spec gives no value, so no claim may rest
on these zeros; claims about reset quantify over `gprInit`. -/
def gprInit : Vector Word 8 := Vector.replicate 8 0

/-- The default of `LOADER_LIMIT` (00_scope.md R8, 90_conflicts.md C4). -/
def loaderLimit : Nat := 0xFFFF

/-! ### Free values (log 29)

What nothing may be claimed of: the registers and memory of a faulted machine (40_execution_cycle.md R115,
93_implementation_defined.md U9) and the memory after a load that did not succeed (70_reset_and_hazards.md R207 to R209).
Each constant has no body, so that a statement about it holds whatever it is; the argument is the number of the draw. -/

/-- R0 to R7 of a faulted machine. -/
opaque freeRegs : Nat → Vector Word 8

/-- The program counter of a faulted machine. -/
opaque freePc : Nat → Word

/-- The value whose flags the status register of a faulted machine shows: it stays one-hot, as in every reachable state
(10_state.md R26). -/
opaque freeCc : Nat → Word

/-- The plain cells of a faulted machine, or of one whose load did not succeed. -/
opaque freeCells : Nat → List (Nat × Word)

end Sys2Proof.Config
end

