-- ==== Sys2Proof/Machine/State.lean ====
section
/-! DEFINITION. The state of the block as plain data (10_state.md R20 to R37), the reasons a run can stop, and the
machine at construction and after reset. -/

namespace Sys2Proof.Machine

/-- The closed list of fatal reasons of 60_exceptions.md R170, with what each records. An instruction that raises one
ENTERS the sequencer state `Seq.faulted` (a next state, R171); a CPU step asked of a machine already in that state
answers `Outcome.fault` with the reason, for it has no step (R101). Both are safe: the spec gives the run no later
step, and the registers and memory of `Seq.faulted` are free values (R115; log 12, log 29). -/
inductive Fault where
  /-- Raised by ST, STI and STR through `memWrite` on KBSR, KBDR or DSR; records the address (20_memory.md R43). Safe. -/
  | readOnlyDeviceWrite (address : Word)
  /-- Raised by RTI, always; records the instruction word (44_trap_and_unimplemented.md R164, D12). Safe. -/
  | unimplementedRTI (instruction : Word)
  /-- Raised by opcode 1101, always; records the instruction word (44_trap_and_unimplemented.md R165, D12). Safe. -/
  | unimplementedReserved (instruction : Word)
  deriving DecidableEq, Repr

/-- Why a step has no meaning. -/
inductive Refusal where
  /-- Raised by an arm of `exec` whose instruction has no meaning yet; safe. No arm of this model raises it. -/
  | notModelled (mnemonic : String)
  /-- Raised by every CPU step of a machine that a failed or refused load left unusable
  (70_reset_and_hazards.md R207 to R209: "It refuses every further step"). Safe. -/
  | unusableUntilReset
  deriving DecidableEq, Repr

/-- The sequencer state (10_state.md R34, 40_execution_cycle.md R100). -/
inductive Seq where
  /-- The CPU may take a step. -/
  | running
  /-- The retry flag is set: TRAP x20 found no input. -/
  | awaitingInput
  /-- A run check found RUN = 0. -/
  | halted
  /-- A fatal condition ended the run. -/
  | faulted (reason : Fault)
  deriving DecidableEq, Repr

/-- The stored cells: (address, word) pairs, addresses strictly rising and below 65536, no pair equal to what an
unlisted address reads as (`Memory.wf`). A cell is a word because the word is the unit of addressing and no byte can be
addressed (20_memory.md R40; log 1). -/
abbrev Memory := List (Nat × Word)

/-- The machine state: everything 10_state.md names, the mark of 70_reset_and_hazards.md R207, and the counter of the
free values. -/
structure State where
  /-- R0 to R7 (10_state.md R21). -/
  regs : Vector Word 8
  /-- The program counter (10_state.md R23). -/
  pc : Word
  /-- The status register: N = bit 2, Z = bit 1, P = bit 0 (10_state.md R24). -/
  cc : Word
  /-- The address space, the MCR cell 0xFFFE included (10_state.md R28, R30). -/
  mem : Memory
  /-- The retry flag (10_state.md R31). -/
  retry : Bool
  /-- The pending input codes, oldest first (10_state.md R32). -/
  inq : List Word
  /-- The codes delivered to the output, oldest first (10_state.md R33). -/
  out : List Word
  /-- The sequencer state (10_state.md R34). -/
  seq : Seq
  /-- False from a failed or refused load until the next reset (70_reset_and_hazards.md R207 to R209). -/
  usable : Bool
  /-- The model's own field, not the spec's: how many free values have been drawn (log 29). -/
  draws : Nat
  deriving DecidableEq, Repr

/-- A machine at construction (70_reset_and_hazards.md R200, 10_state.md R37): the host supplies the collaborators, and
the general registers take the open parameter `gprInit`. No cell is listed, so each reads as its reset contents. `draws`
is the model's own (log 29). -/
def State.construct (gprInit : Vector Word 8) (inq out : List Word) (draws : Nat) : State where
  regs := gprInit
  pc := 0x3000
  cc := 0x0002
  mem := []
  retry := false
  inq := inq
  out := out
  seq := .running
  usable := true
  draws := draws

/-- The machine right after reset. DESIGN CHOICE, unsafe: R0 to R7 are 0 (log 3), the host-owned queues are empty
(log 4) and no free value has been drawn (log 29); every other field is the spec's. -/
def State.reset : State := State.construct Config.gprInit [] [] 0

end Sys2Proof.Machine
end

