-- ==== Sys2Proof/Machine/Ops.lean ====
section
/-! DEFINITION. The named operations on the state: registers, the memory access unit (20_memory.md R42, R43), the
collaborators (R52, R53), the outcomes of the executor and what the sequencer does with each (40_execution_cycle.md R104
to R108), fault entry (60_exceptions.md R171) and trap entry (R176). -/

namespace Sys2Proof.Machine

/-! ### One field at a time -/

/-- `pc <- v`. -/
def State.setPc (s : State) (v : Word) : State := { s with pc := v }

/-- `cc <- v`, the whole status register. -/
def State.setCc (s : State) (v : Word) : State := { s with cc := v }

/-- Replace the stored cells. -/
def State.setMem (s : State) (m : Memory) : State := { s with mem := m }

/-- Replace the retry flag. -/
def State.setRetry (s : State) (b : Bool) : State := { s with retry := b }

/-- Replace the input queue. -/
def State.setInq (s : State) (q : List Word) : State := { s with inq := q }

/-- Replace the output sequence. -/
def State.setOut (s : State) (o : List Word) : State := { s with out := o }

/-- Replace the sequencer state. -/
def State.setSeq (s : State) (q : Seq) : State := { s with seq := q }

/-- Replace the usable mark. -/
def State.setUsable (s : State) (b : Bool) : State := { s with usable := b }

/-- `x[r]` (00_scope.md R12). -/
def State.reg (s : State) (r : Reg) : Word := s.regs[r.toNat]'r.isLt

/-- `x[r] <- v` (00_scope.md R12). No register is hardwired (10_state.md R20). -/
def State.setReg (s : State) (r : Reg) (v : Word) : State := { s with regs := s.regs.set r.toNat v r.isLt }

/-! ### Stored cells -/

/-- KBSR, keyboard status (20_memory.md R55). -/
def addrKBSR : Word := 0xFE00

/-- KBDR, keyboard data. -/
def addrKBDR : Word := 0xFE02

/-- DSR, display status. -/
def addrDSR : Word := 0xFE04

/-- DDR, display data. -/
def addrDDR : Word := 0xFE06

/-- MCR, the machine control register (10_state.md R28). -/
def addrMCR : Word := 0xFFFE

/-- What a cell that nothing has written holds: its contents at construction and after reset, 0x8000 at MCR and 0x0000
elsewhere (10_state.md R37). -/
def Memory.unlisted (a : Nat) : Word := if a = 0xFFFE then 0x8000 else 0x0000

/-- `mem[a]`, the plain stored cell (00_scope.md R12). -/
def Memory.get : Memory → Nat → Word
  | [], a => Memory.unlisted a
  | (b, v) :: rest, a => if a = b then v else Memory.get rest a

/-- List `(a, v)` unless `v` is what an unlisted `a` reads as. -/
def Memory.consCell (a : Nat) (v : Word) (rest : Memory) : Memory :=
  if v = Memory.unlisted a then rest else (a, v) :: rest

/-- `mem[a] <- v`, keeping the canonical form. -/
def Memory.put : Memory → Nat → Word → Memory
  | [], a, v => Memory.consCell a v []
  | (b, u) :: rest, a, v =>
    if a < b then Memory.consCell a v ((b, u) :: rest)
    else if a = b then Memory.consCell a v rest
    else (b, u) :: Memory.put rest a v

/-- The canonical form above address `lo`. -/
def Memory.wfFrom (lo : Nat) : Memory → Bool
  | [] => true
  | (a, v) :: rest => decide (lo ≤ a) && decide (a < 65536) && (v != Memory.unlisted a) && Memory.wfFrom (a + 1) rest

/-- The canonical form: addresses strictly rising and inside the address space, and no pair that says what an unlisted
address reads as. -/
def Memory.wf (m : Memory) : Bool := Memory.wfFrom 0 m

/-! ### The values of the status register (10_state.md R24, R25; the bit layout is the spec's decision D3, log 6) -/

/-- The status value of N. -/
def ccN : Word := 0x0004

/-- The status value of Z. -/
def ccZ : Word := 0x0002

/-- The status value of P. -/
def ccP : Word := 0x0001

/-- The status value for a word just written: zero, negative (bit 15 set), or positive (10_state.md R25). -/
def ccOf (v : Word) : Word :=
  if v = 0x0000 then ccZ else if v.getLsbD 15 then ccN else ccP

/-! ### The collaborators (20_memory.md R52, R53) -/

/-- `has_pending()`. -/
def State.hasPending (s : State) : Bool := !s.inq.isEmpty

/-- `take_pending()`: the head of the queue leaves it. It is called only when an input is pending (R52); on an empty
queue it changes nothing and gives 0, the value KBDR reads there (R42). -/
def State.takePending (s : State) : Word × State :=
  match s.inq with
  | [] => (0x0000, s)
  | code :: rest => (code, s.setInq rest)

/-- `put(v)`: the code is appended to the output. -/
def State.putOut (s : State) (v : Word) : State := s.setOut (s.out ++ [v])

/-! ### The memory access unit -/

/-- What answers an access: one of the four redirected addresses, or plain storage (20_memory.md R45). -/
inductive Target where
  | kbsr | kbdr | dsr | ddr | plain
  deriving DecidableEq, Repr

/-- The target of an address. MCR is plain (20_memory.md R44, 90_conflicts.md C3). -/
def target (a : Word) : Target :=
  if a = addrKBSR then .kbsr
  else if a = addrKBDR then .kbdr
  else if a = addrDSR then .dsr
  else if a = addrDDR then .ddr
  else .plain

/-- `MemRead(a, 1)` (20_memory.md R42): the word read and the state after it. A read never faults. -/
def memRead (a : Word) (s : State) : Word × State :=
  match target a with
  | .kbsr => (if s.hasPending then 0x8000 else 0x0000, s)
  | .kbdr => if s.hasPending then s.takePending else (0x0000, s)
  | .dsr => (0x8000, s)
  | .ddr => (0x0000, s)
  | .plain => (s.mem.get a.toNat, s)

/-- `MemWrite(a, 1, v)` (20_memory.md R43): the state after the write, or the fault of a read-only device register, with
nothing stored and nothing output. -/
def memWrite (a v : Word) (s : State) : Except Fault State :=
  match target a with
  | .kbsr | .kbdr | .dsr => .error (.readOnlyDeviceWrite a)
  | .ddr => .ok (s.putOut v)
  | .plain => .ok (s.setMem (s.mem.put a.toNat v))

/-! ### Contents the spec leaves at any value (log 29) -/

/-- The memory that holds these cells, the first of two for one address winning; a pair that names no plain cell adds
nothing. Every memory without a cell behind a device address is one of these. -/
def Memory.ofCells : List (Nat × Word) → Memory
  | [] => []
  | (a, v) :: rest =>
    if a < 65536 ∧ target (BitVec.ofNat 16 a) = .plain then (Memory.ofCells rest).put a v else Memory.ofCells rest

/-- Any memory: the cells are a fresh free value. -/
def State.freeMemory (s : State) : State :=
  { s with mem := Memory.ofCells (Config.freeCells s.draws), draws := s.draws + 1 }

/-- Any register file and any memory: all ten slots of 10_state.md R20 and the cells are fresh free values. -/
def State.freeContents (s : State) : State :=
  { s.freeMemory with
    regs := Config.freeRegs s.draws, pc := Config.freePc s.draws, cc := ccOf (Config.freeCc s.draws) }

/-! ### Outcomes of the executor -/

/-- The outcome of `execute(instr)` (40_execution_cycle.md R104), with the state its rule leaves. -/
inductive Completion where
  /-- The rule ran to its end. -/
  | success (s : State)
  /-- RetryAfterInterrupt: TRAP x20 with no input pending. -/
  | retryAfterInterrupt (s : State)
  /-- Unimplemented, or the fault of a memory write; the state holds what the rule has done before it, and no more
  (R107, R108). -/
  | fatal (reason : Fault) (s : State)
  deriving DecidableEq, Repr

/-- The outcome of an instruction whose last action is the write `MemWrite(a, 1, v)` (40_execution_cycle.md R108). -/
def storeAt (a v : Word) (s : State) : Completion :=
  match memWrite a v s with
  | .ok t => .success t
  | .error reason => .fatal reason s

/-- Entering a fault: the run is over, with this reason; no handler runs and nothing is saved (60_exceptions.md R171,
40_execution_cycle.md R107, R108). From here on the registers and memory are any value, so that no claim can rest on
them (R115, 93_implementation_defined.md U9, D21; log 29); the queues, the retry flag and the reason stay. -/
def State.enterFault (s : State) (reason : Fault) : State := s.freeContents.setSeq (.faulted reason)

/-- What the sequencer does on RetryAfterInterrupt (40_execution_cycle.md R106): `pc` back to the TRAP x20, the retry
flag set, and a wait for the host. -/
def State.enterAwaitingInput (s : State) : State := ((s.setPc (s.pc - 1)).setRetry true).setSeq .awaitingInput

/-- The sequencer's handling of an outcome (40_execution_cycle.md R105 to R108). -/
def settle : Completion → Host.Outcome State Fault Refusal
  | .success s => .next s
  | .retryAfterInterrupt s => .next s.enterAwaitingInput
  | .fatal reason s => .next (s.enterFault reason)

/-! ### Link and trap entry -/

/-- R7, the link register (10_state.md R21). -/
def linkReg : Reg := 7

/-- `x[7] <- pc`, the return address (42_control.md R132). -/
def State.link (s : State) : State := s.setReg linkReg s.pc

/-- Trap entry (60_exceptions.md R176, 44_trap_and_unimplemented.md R160): the return address into R7, then control to
the address held in the vector cell. No mode, mask, stack or status register is touched. -/
def State.trapEntry (s : State) (vector : Word) : State :=
  let (entry, t) := memRead vector s.link
  t.setPc entry

end Sys2Proof.Machine
end

