-- ==== Sys2Proof/Machine/Flags.lean ====
section
/-! DEFINITION. The condition code: `setcc`, the flags and BR's test (10_state.md R24, R25). The bit layout is the spec's decision D3 (log 6). -/

namespace Sys2Proof.Machine

/-- `setcc(v)`: the whole status register is replaced (10_state.md R25). -/
def State.setcc (s : State) (v : Word) : State := s.setCc (ccOf v)

/-- The N flag, `cc[2]`. -/
def State.flagN (s : State) : Bool := s.cc.getLsbD 2

/-- The Z flag, `cc[1]`. -/
def State.flagZ (s : State) : Bool := s.cc.getLsbD 1

/-- The P flag, `cc[0]`. -/
def State.flagP (s : State) : Bool := s.cc.getLsbD 0

/-- `x[dr] <- v; setcc(v)`: the last two actions of ADD, AND, NOT, LD, LDI, LDR and LEA (10_state.md R27). -/
def State.writeResult (s : State) (dr : Reg) (v : Word) : State := (s.setReg dr v).setcc v

/-- BR's test `(instr[11:9] & cc[2:0]) != 0` (42_control.md R130, 30_encoding.md R85). -/
def State.branchTaken (s : State) (nzp : BitVec 3) : Bool := nzp &&& s.cc.extractLsb' 0 3 != 0#3

end Sys2Proof.Machine
end

