-- ==== Sys2Proof/Machine/Operands.lean ====
section
/-! DEFINITION. Extensions (00_scope.md R11), immediates (30_encoding.md R84) and the addressing modes
(43_load_store.md R140). In each, `s.pc` is the incremented program counter (40_execution_cycle.md R103). -/

namespace Sys2Proof.Machine

/-- `imm5`: sext_5. -/
def sext5 (f : BitVec 5) : Word := f.signExtend 16

/-- `offset6`: sext_6. -/
def sext6 (f : BitVec 6) : Word := f.signExtend 16

/-- `PCoffset9`: sext_9. -/
def sext9 (f : BitVec 9) : Word := f.signExtend 16

/-- `PCoffset11`: sext_11. -/
def sext11 (f : BitVec 11) : Word := f.signExtend 16

/-- `trapvect`: zext_8. -/
def zext8 (f : BitVec 8) : Word := f.setWidth 16

/-- PC-relative: `pc + sext_9(instr[8:0])`, mod 2^16. -/
def eaPCRelative (offset9 : BitVec 9) (s : State) : Word := s.pc + sext9 offset9

/-- PC-relative with the 11-bit offset of JSR. -/
def eaPCRelative11 (offset11 : BitVec 11) (s : State) : Word := s.pc + sext11 offset11

/-- Indirect: the word read at `pc + sext_9(instr[8:0])`, and the state after that read (20_memory.md R58: the pointer
is read first, and that read may be a device access). -/
def eaIndirect (offset9 : BitVec 9) (s : State) : Word × State := memRead (eaPCRelative offset9 s) s

/-- Base+offset: `x[baseR] + sext_6(instr[5:0])`, mod 2^16. -/
def eaBaseOffset (baseR : Reg) (offset6 : BitVec 6) (s : State) : Word := s.reg baseR + sext6 offset6

/-- Vector: `zext_8(instr[7:0])`. -/
def eaVector (trapvect8 : BitVec 8) : Word := zext8 trapvect8

end Sys2Proof.Machine
end

