-- ==== Sys2Proof/Machine/Control.lean ====
section
/-! DEFINITION. BR, JMP, JSR and JSRR (42_control.md R130 to R133). `s.pc` is the incremented program counter. -/

namespace Sys2Proof.Machine

/-- BR (R130): a taken branch adds the offset; an untaken one leaves `pc` at the next word. -/
def execBr (nzp : BitVec 3) (offset9 : BitVec 9) (s : State) : Host.Outcome State Fault Refusal :=
  settle (.success (if s.branchTaken nzp then s.setPc (eaPCRelative offset9 s) else s))

/-- JMP (R131). -/
def execJmp (baseR : Reg) (s : State) : Host.Outcome State Fault Refusal :=
  settle (.success (s.setPc (s.reg baseR)))

/-- JSR (R132): the link write does not change `pc`, so the offset is added to the incremented one. -/
def execJsr (offset11 : BitVec 11) (s : State) : Host.Outcome State Fault Refusal :=
  settle (.success (s.link.setPc (eaPCRelative11 offset11 s)))

/-- JSRR (R133): the link is written first and the base register is read after it, so JSRR R7 goes to the next word
(decision D20, log 10). -/
def execJsrr (baseR : Reg) (s : State) : Host.Outcome State Fault Refusal :=
  settle (.success (s.link.setPc (s.link.reg baseR)))

end Sys2Proof.Machine
end

