-- ==== Sys2Proof/Machine/LoadStore.lean ====
section
/-! DEFINITION. LD, LDI, LDR, LEA, ST, STI and STR (43_load_store.md R141 to R147). -/

namespace Sys2Proof.Machine

/-- `v <- MemRead(a, 1); x[dr] <- v; setcc(v)`: the last actions of every load (R148). -/
def loadFrom (dr : Reg) (a : Word) (s : State) : Completion :=
  let (v, t) := memRead a s
  .success (t.writeResult dr v)

/-- LD (R141). -/
def execLd (dr : Reg) (offset9 : BitVec 9) (s : State) : Host.Outcome State Fault Refusal :=
  settle (loadFrom dr (eaPCRelative offset9 s) s)

/-- LDI (R142): the pointer is read first, then the data. -/
def execLdi (dr : Reg) (offset9 : BitVec 9) (s : State) : Host.Outcome State Fault Refusal :=
  let (p, t) := eaIndirect offset9 s
  settle (loadFrom dr p t)

/-- LDR (R143): the address is computed from the old base register. -/
def execLdr (dr baseR : Reg) (offset6 : BitVec 6) (s : State) : Host.Outcome State Fault Refusal :=
  settle (loadFrom dr (eaBaseOffset baseR offset6 s) s)

/-- LEA (R144): the address itself, with no memory access. -/
def execLea (dr : Reg) (offset9 : BitVec 9) (s : State) : Host.Outcome State Fault Refusal :=
  settle (.success (s.writeResult dr (eaPCRelative offset9 s)))

/-- ST (R145). -/
def execSt (sr : Reg) (offset9 : BitVec 9) (s : State) : Host.Outcome State Fault Refusal :=
  settle (storeAt (eaPCRelative offset9 s) (s.reg sr) s)

/-- STI (R146): the pointer is read first, and that read's effect stays if the write faults (60_exceptions.md R175). -/
def execSti (sr : Reg) (offset9 : BitVec 9) (s : State) : Host.Outcome State Fault Refusal :=
  let (p, t) := eaIndirect offset9 s
  settle (storeAt p (t.reg sr) t)

/-- STR (R147). -/
def execStr (sr baseR : Reg) (offset6 : BitVec 6) (s : State) : Host.Outcome State Fault Refusal :=
  settle (storeAt (eaBaseOffset baseR offset6 s) (s.reg sr) s)

end Sys2Proof.Machine
end

