-- ==== Sys2Proof/Machine/Operate.lean ====
section
/-! DEFINITION. ADD, AND and NOT (41_operate.md R120 to R122). Every source is read before `dr` is written. -/

namespace Sys2Proof.Machine

/-- ADD, register form (R120). -/
def execAdd (dr sr1 sr2 : Reg) (s : State) : Host.Outcome State Fault Refusal :=
  settle (.success (s.writeResult dr (s.reg sr1 + s.reg sr2)))

/-- ADD, immediate form (R120). -/
def execAddi (dr sr1 : Reg) (imm5 : BitVec 5) (s : State) : Host.Outcome State Fault Refusal :=
  settle (.success (s.writeResult dr (s.reg sr1 + sext5 imm5)))

/-- AND, register form (R121). -/
def execAnd (dr sr1 sr2 : Reg) (s : State) : Host.Outcome State Fault Refusal :=
  settle (.success (s.writeResult dr (s.reg sr1 &&& s.reg sr2)))

/-- AND, immediate form (R121). -/
def execAndi (dr sr1 : Reg) (imm5 : BitVec 5) (s : State) : Host.Outcome State Fault Refusal :=
  settle (.success (s.writeResult dr (s.reg sr1 &&& sext5 imm5)))

/-- NOT (R122). -/
def execNot (dr sr : Reg) (s : State) : Host.Outcome State Fault Refusal :=
  settle (.success (s.writeResult dr (~~~s.reg sr)))

end Sys2Proof.Machine
end

