-- ==== Sys2Proof/Syntax.lean ====
section
/-! DEFINITION. The instructions: one constructor for each row of spec/opcode_table.json, with the decoded operand
fields of 30_encoding.md R73. Bits no rule reads (R86) are not kept, except in RTI and the reserved opcode, whose fault
records the whole instruction word (60_exceptions.md R170). -/

namespace Sys2Proof

/-- One instruction of the block (30_encoding.md R72; the immediate and register forms of ADD and AND, JSR and JSRR, and
TRAP x20 and the other TRAPs are rows of their own, R71). -/
inductive Instr where
  /-- BR: the requested conditions n, z, p as a mask, and PCoffset9 (R77). -/
  | br (nzp : BitVec 3) (offset9 : BitVec 9)
  /-- ADD, register form (R74). -/
  | add (dr sr1 sr2 : Reg)
  /-- ADD, immediate form (R75). -/
  | addi (dr sr1 : Reg) (imm5 : BitVec 5)
  /-- LD (R80). -/
  | ld (dr : Reg) (offset9 : BitVec 9)
  /-- ST (R80). -/
  | st (sr : Reg) (offset9 : BitVec 9)
  /-- JSR, bit 11 = 1 (R79). -/
  | jsr (offset11 : BitVec 11)
  /-- JSRR, bit 11 = 0 (R79). -/
  | jsrr (baseR : Reg)
  /-- AND, register form (R74). -/
  | and (dr sr1 sr2 : Reg)
  /-- AND, immediate form (R75). -/
  | andi (dr sr1 : Reg) (imm5 : BitVec 5)
  /-- LDR (R81). -/
  | ldr (dr baseR : Reg) (offset6 : BitVec 6)
  /-- STR (R81). -/
  | str (sr baseR : Reg) (offset6 : BitVec 6)
  /-- RTI, opcode 1000, with its bits 11:0 (R83). -/
  | rti (low12 : BitVec 12)
  /-- NOT (R76). -/
  | not (dr sr : Reg)
  /-- LDI (R80). -/
  | ldi (dr : Reg) (offset9 : BitVec 9)
  /-- STI (R80). -/
  | sti (sr : Reg) (offset9 : BitVec 9)
  /-- JMP; RET is JMP R7 (R78, R90). -/
  | jmp (baseR : Reg)
  /-- The reserved opcode 1101, with its bits 11:0 (R83). -/
  | reserved (low12 : BitVec 12)
  /-- LEA (R80). -/
  | lea (dr : Reg) (offset9 : BitVec 9)
  /-- TRAP with a vector other than 0x20 (R82, R88). -/
  | trap (trapvect8 : BitVec 8)
  /-- TRAP x20, GETC, which takes priority over the general row (R88). -/
  | trapGetc
  deriving DecidableEq, Repr

end Sys2Proof
end

