-- ==== Sys2Proof/WellFormed.lean ====
section
/-! DEFINITION. Which terms of `Instr` stand for an instruction word. Every field value is legal in every field
(30_encoding.md R85), so the one check is that the general TRAP row does not hold vector 0x20, which the TRAP_GETC row
takes (R88). -/

namespace Sys2Proof

/-- The vector that TRAP_GETC takes (44_trap_and_unimplemented.md R160). -/
def getcVector : BitVec 8 := 0x20#8

/-- Whether some instruction word decodes to this term. -/
def Instr.wf : Instr → Bool
  | .trap trapvect8 => trapvect8 != getcVector
  | .br _ _ | .add _ _ _ | .addi _ _ _ | .ld _ _ | .st _ _ | .jsr _ | .jsrr _ | .and _ _ _ | .andi _ _ _
  | .ldr _ _ _ | .str _ _ _ | .rti _ | .not _ _ | .ldi _ _ | .sti _ _ | .jmp _ | .reserved _ | .lea _ _
  | .trapGetc => true

end Sys2Proof
end

