-- ==== Sys2Proof/Decode.lean ====
section
/-! DEFINITION. The decoder, total on the 65536 words (30_encoding.md R88), the encoder written from the same format
tables (R74 to R83), and the opcode table's rows as data. Opcode numbers and field positions are the spec's adoption of
LC-3's (R72, R73, decision D2; log 5). -/

namespace Sys2Proof

/-- `instr[15:12]` (30_encoding.md R71). -/
def opField (w : Word) : BitVec 4 := w.extractLsb' 12 4

/-- `instr[11:9]`: dr, the store source, or BR's nzp (R73). -/
def field11to9 (w : Word) : BitVec 3 := w.extractLsb' 9 3

/-- `instr[8:6]`: sr1, NOT's source or baseR (R73). -/
def field8to6 (w : Word) : BitVec 3 := w.extractLsb' 6 3

/-- `instr[2:0]`: sr2 (R73). -/
def field2to0 (w : Word) : BitVec 3 := w.extractLsb' 0 3

/-- `instr[4:0]`: imm5 (R73). -/
def imm5Field (w : Word) : BitVec 5 := w.extractLsb' 0 5

/-- `instr[5:0]`: offset6 (R73). -/
def offset6Field (w : Word) : BitVec 6 := w.extractLsb' 0 6

/-- `instr[8:0]`: PCoffset9 (R73). -/
def offset9Field (w : Word) : BitVec 9 := w.extractLsb' 0 9

/-- `instr[10:0]`: PCoffset11 (R73). -/
def offset11Field (w : Word) : BitVec 11 := w.extractLsb' 0 11

/-- `instr[7:0]`: trapvect8 (R73). -/
def trapvect8Field (w : Word) : BitVec 8 := w.extractLsb' 0 8

/-- `instr[11:0]`: the bits RTI and the reserved opcode ignore (R83). -/
def low12Field (w : Word) : BitVec 12 := w.extractLsb' 0 12

/-- `instr[5]`: selects the immediate form of ADD and AND (R71). -/
def immFlag (w : Word) : Bool := w.getLsbD 5

/-- `instr[11]`: selects JSR over JSRR (R71). -/
def longFlag (w : Word) : Bool := w.getLsbD 11

/-- The decoder: the operation is selected by bits 15:12, and by bit 5, bit 11 or the vector where R71 says so. It is
total and rejects no word (R87, R88); bits no rule reads are ignored (R86). -/
def decode (w : Word) : Instr :=
  if opField w = 0x0#4 then .br (field11to9 w) (offset9Field w)
  else if opField w = 0x1#4 then
    if immFlag w then .addi (field11to9 w) (field8to6 w) (imm5Field w)
    else .add (field11to9 w) (field8to6 w) (field2to0 w)
  else if opField w = 0x2#4 then .ld (field11to9 w) (offset9Field w)
  else if opField w = 0x3#4 then .st (field11to9 w) (offset9Field w)
  else if opField w = 0x4#4 then
    if longFlag w then .jsr (offset11Field w) else .jsrr (field8to6 w)
  else if opField w = 0x5#4 then
    if immFlag w then .andi (field11to9 w) (field8to6 w) (imm5Field w)
    else .and (field11to9 w) (field8to6 w) (field2to0 w)
  else if opField w = 0x6#4 then .ldr (field11to9 w) (field8to6 w) (offset6Field w)
  else if opField w = 0x7#4 then .str (field11to9 w) (field8to6 w) (offset6Field w)
  else if opField w = 0x8#4 then .rti (low12Field w)
  else if opField w = 0x9#4 then .not (field11to9 w) (field8to6 w)
  else if opField w = 0xA#4 then .ldi (field11to9 w) (offset9Field w)
  else if opField w = 0xB#4 then .sti (field11to9 w) (offset9Field w)
  else if opField w = 0xC#4 then .jmp (field8to6 w)
  else if opField w = 0xD#4 then .reserved (low12Field w)
  else if opField w = 0xE#4 then .lea (field11to9 w) (offset9Field w)
  else if trapvect8Field w = getcVector then .trapGetc
  else .trap (trapvect8Field w)

/-- The word of an instruction, with the canonical value in the ignored bits (R74 to R83, "canonical" columns). -/
def encode : Instr → Word
  | .br nzp offset9 => 0x0#4 ++ nzp ++ offset9
  | .add dr sr1 sr2 => 0x1#4 ++ dr ++ sr1 ++ 0b000#3 ++ sr2
  | .addi dr sr1 imm5 => 0x1#4 ++ dr ++ sr1 ++ 0b1#1 ++ imm5
  | .ld dr offset9 => 0x2#4 ++ dr ++ offset9
  | .st sr offset9 => 0x3#4 ++ sr ++ offset9
  | .jsr offset11 => 0x4#4 ++ 0b1#1 ++ offset11
  | .jsrr baseR => 0x4#4 ++ 0b000#3 ++ baseR ++ 0b000000#6
  | .and dr sr1 sr2 => 0x5#4 ++ dr ++ sr1 ++ 0b000#3 ++ sr2
  | .andi dr sr1 imm5 => 0x5#4 ++ dr ++ sr1 ++ 0b1#1 ++ imm5
  | .ldr dr baseR offset6 => 0x6#4 ++ dr ++ baseR ++ offset6
  | .str sr baseR offset6 => 0x7#4 ++ sr ++ baseR ++ offset6
  | .rti low12 => 0x8#4 ++ low12
  | .not dr sr => 0x9#4 ++ dr ++ sr ++ 0b111111#6
  | .ldi dr offset9 => 0xA#4 ++ dr ++ offset9
  | .sti sr offset9 => 0xB#4 ++ sr ++ offset9
  | .jmp baseR => 0xC#4 ++ 0b000#3 ++ baseR ++ 0b000000#6
  | .reserved low12 => 0xD#4 ++ low12
  | .lea dr offset9 => 0xE#4 ++ dr ++ offset9
  | .trap trapvect8 => 0xF#4 ++ 0x0#4 ++ trapvect8
  | .trapGetc => 0xF#4 ++ 0x0#4 ++ getcVector

/-- The name of an instruction's row in spec/opcode_table.json. -/
def Instr.mnemonic : Instr → String
  | .br _ _ => "BR"
  | .add _ _ _ => "ADD"
  | .addi _ _ _ => "ADDI"
  | .ld _ _ => "LD"
  | .st _ _ => "ST"
  | .jsr _ => "JSR"
  | .jsrr _ => "JSRR"
  | .and _ _ _ => "AND"
  | .andi _ _ _ => "ANDI"
  | .ldr _ _ _ => "LDR"
  | .str _ _ _ => "STR"
  | .rti _ => "RTI"
  | .not _ _ => "NOT"
  | .ldi _ _ => "LDI"
  | .sti _ _ => "STI"
  | .jmp _ => "JMP"
  | .reserved _ => "RESERVED"
  | .lea _ _ => "LEA"
  | .trap _ => "TRAP"
  | .trapGetc => "TRAP_GETC"

/-- One row of spec/opcode_table.json: a word belongs to the row iff its bits under `mask` are `pattern`. -/
structure OpcodeRow where
  mnemonic : String
  pattern : Word
  mask : Word
  deriving DecidableEq, Repr

/-- Whether the word belongs to the row. -/
def OpcodeRow.matches (r : OpcodeRow) (w : Word) : Bool := w &&& r.mask == r.pattern

/-- The rows of spec/opcode_table.json, in its order. -/
def opcodeRows : List OpcodeRow :=
  [⟨"BR", 0x0000, 0xF000⟩, ⟨"ADD", 0x1000, 0xF020⟩, ⟨"ADDI", 0x1020, 0xF020⟩, ⟨"LD", 0x2000, 0xF000⟩,
   ⟨"ST", 0x3000, 0xF000⟩, ⟨"JSR", 0x4800, 0xF800⟩, ⟨"JSRR", 0x4000, 0xF800⟩, ⟨"AND", 0x5000, 0xF020⟩,
   ⟨"ANDI", 0x5020, 0xF020⟩, ⟨"LDR", 0x6000, 0xF000⟩, ⟨"STR", 0x7000, 0xF000⟩, ⟨"RTI", 0x8000, 0xF000⟩,
   ⟨"NOT", 0x9000, 0xF000⟩, ⟨"LDI", 0xA000, 0xF000⟩, ⟨"STI", 0xB000, 0xF000⟩, ⟨"JMP", 0xC000, 0xF000⟩,
   ⟨"RESERVED", 0xD000, 0xF000⟩, ⟨"LEA", 0xE000, 0xF000⟩, ⟨"TRAP", 0xF000, 0xF000⟩,
   ⟨"TRAP_GETC", 0xF020, 0xF0FF⟩]

/-- The instruction read from an opcode-table word of `nbits` bits: the machine stores it as one 16-bit word, its bits
above `nbits` zero. A number that is no word of at most 16 bits is refused (R70). -/
def decodeTableWord (nbits w : Nat) : Option Instr :=
  if nbits ≤ 16 ∧ w < 2 ^ nbits then some (decode (BitVec.ofNat 16 w)) else none

end Sys2Proof
end

