-- ==== Sys2Proof/Machine/Trap.lean ====
section
/-! DEFINITION. TRAP, RTI and the reserved opcode (44_trap_and_unimplemented.md R160 to R165). -/

namespace Sys2Proof.Machine

/-- The x20 path of TRAP (R161): with input pending, one code moves from the queue to R0 and nothing else changes; with
none, the outcome is RetryAfterInterrupt and nothing has changed. The queue itself is tested, not KBSR. -/
def getc (s : State) : Completion :=
  if s.hasPending then
    let (code, t) := s.takePending
    .success (t.setReg 0 code)
  else .retryAfterInterrupt s

/-- TRAP (R160): vector 0x20 takes the x20 path, every other vector enters the service routine (R162). -/
def execTrap (trapvect8 : BitVec 8) (s : State) : Host.Outcome State Fault Refusal :=
  settle (if trapvect8 = getcVector then getc s else .success (s.trapEntry (eaVector trapvect8)))

/-- TRAP x20, GETC (R161). -/
def execTrapGetc (s : State) : Host.Outcome State Fault Refusal :=
  settle (getc s)

/-- RTI (R164): Unimplemented, always fatal; the reason records the instruction word (D12). -/
def execRti (low12 : BitVec 12) (s : State) : Host.Outcome State Fault Refusal :=
  settle (.fatal (.unimplementedRTI (encode (.rti low12))) s)

/-- The reserved opcode (R165): Unimplemented, always fatal, with a reason of its own (90_conflicts.md C2). -/
def execReserved (low12 : BitVec 12) (s : State) : Host.Outcome State Fault Refusal :=
  settle (.fatal (.unimplementedReserved (encode (.reserved low12))) s)

end Sys2Proof.Machine
end

