-- ==== Sys2Proof/Machine/Dispatch.lean ====
section
/-! DEFINITION. `execute(instr)` with the sequencer's handling of its outcome (40_execution_cycle.md R104 to R108): one
arm per instruction. When it is called, `s.pc` already holds the address of the next word (R103). -/

namespace Sys2Proof.Machine

def exec (i : Instr) (s : State) : Host.Outcome State Fault Refusal :=
  match i with
  | .br nzp offset9 => Sys2Proof.Machine.execBr nzp offset9 s
  | .add dr sr1 sr2 => Sys2Proof.Machine.execAdd dr sr1 sr2 s
  | .addi dr sr1 imm5 => Sys2Proof.Machine.execAddi dr sr1 imm5 s
  | .ld dr offset9 => Sys2Proof.Machine.execLd dr offset9 s
  | .st sr offset9 => Sys2Proof.Machine.execSt sr offset9 s
  | .jsr offset11 => Sys2Proof.Machine.execJsr offset11 s
  | .jsrr baseR => Sys2Proof.Machine.execJsrr baseR s
  | .and dr sr1 sr2 => Sys2Proof.Machine.execAnd dr sr1 sr2 s
  | .andi dr sr1 imm5 => Sys2Proof.Machine.execAndi dr sr1 imm5 s
  | .ldr dr baseR offset6 => Sys2Proof.Machine.execLdr dr baseR offset6 s
  | .str sr baseR offset6 => Sys2Proof.Machine.execStr sr baseR offset6 s
  | .rti low12 => Sys2Proof.Machine.execRti low12 s
  | .not dr sr => Sys2Proof.Machine.execNot dr sr s
  | .ldi dr offset9 => Sys2Proof.Machine.execLdi dr offset9 s
  | .sti sr offset9 => Sys2Proof.Machine.execSti sr offset9 s
  | .jmp baseR => Sys2Proof.Machine.execJmp baseR s
  | .reserved low12 => Sys2Proof.Machine.execReserved low12 s
  | .lea dr offset9 => Sys2Proof.Machine.execLea dr offset9 s
  | .trap trapvect8 => Sys2Proof.Machine.execTrap trapvect8 s
  | .trapGetc => Sys2Proof.Machine.execTrapGetc s

end Sys2Proof.Machine
end

