-- ==== Sys2Proof/Machine/Cycle.lean ====
section
/-! DEFINITION. The CPU step (40_execution_cycle.md R100 to R103): when the CPU may step, the run check, the fetch with
the increment, and the call of the executor. -/

namespace Sys2Proof.Machine

/-- RUN, bit 15 of the word the run check reads (10_state.md R28). -/
def runBit (mcr : Word) : Bool := mcr.getLsbD 15

/-- The fetch: the word at `pc` through the memory access unit, and the state after it with `pc` incremented mod 2^16
(40_execution_cycle.md R103, 20_memory.md R47). -/
def fetch (s : State) : Word × State :=
  let (w, t) := memRead s.pc s
  (w, t.setPc (t.pc + 1))

/-- Fetch, increment and execute (40_execution_cycle.md R103). -/
def fetchAndExecute (s : State) : Host.Outcome State Fault Refusal :=
  let (w, t) := fetch s
  exec (decode w) t

/-- One step of a running CPU: the run check before any fetch (40_execution_cycle.md R102), then the instruction. -/
def runningStep (s : State) : Host.Outcome State Fault Refusal :=
  let (mcr, t) := memRead addrMCR s
  if runBit mcr then fetchAndExecute t else .next (t.setSeq .halted)

/-- One CPU step (40_execution_cycle.md R101). A machine that waits for input or has halted has no step: it stays as it
is until the host acts (log 13). A faulted one has no step either, and its run is over with its reason (R109). A machine
that a failed or refused load left unusable refuses every step (70_reset_and_hazards.md R207). -/
def cpuStep (s : State) : Host.Outcome State Fault Refusal :=
  if s.usable then
    match s.seq with
    | .running => runningStep s
    | .awaitingInput => .next s
    | .halted => .next s
    | .faulted reason => .fault reason
  else .refused .unusableUntilReset

/-- The state in which the next CPU step fetches `w` from the cell at `pc` and executes it: the word is stored there and
everything the fetch needs is set (Running, usable, RUN). It cannot do so when `pc` is one of the four device addresses,
which have no storage, nor when `pc` is MCR itself and `w` has bit 15 clear (log 20). -/
def placeAtPc (s : State) (w : Word) : State :=
  let running := ((s.setSeq .running).setRetry false).setUsable true
  let mcr := s.mem.get addrMCR.toNat ||| 0x8000
  running.setMem ((s.mem.put addrMCR.toNat mcr).put s.pc.toNat w)

end Sys2Proof.Machine
end

