-- ==== Sys2Proof/Machine/Step.lean ====
section
/-! DEFINITION. The step of the machine, and an instruction placed where the next step fetches it. -/

namespace Sys2Proof.Machine

/-- One CPU step (40_execution_cycle.md R100 to R108). -/
def step (s : State) : Host.Outcome State Fault Refusal := cpuStep s

/-- `s` with the opcode-table word `w` of `nbits` bits where the next step fetches (log 20). -/
def State.withFetchWord (s : State) (nbits w : Nat) : State := placeAtPc s (BitVec.ofNat 16 (w % 2 ^ nbits))

end Sys2Proof.Machine
end

