-- ==== Sys2Proof/Machine/HostMoves.lean ====
section
/-! DEFINITION. What the host does between CPU steps (70_reset_and_hazards.md R200 to R212, 40_execution_cycle.md R110,
R111): notify, enqueue, reset, load, run a batch, observe; and the image writer of R211. A host move never falls inside a
CPU step (R112), so each is a function of its own beside `step` (log 14). -/

namespace Sys2Proof.Machine

/-- The interrupt notification (40_execution_cycle.md R110): it resumes a machine whose retry flag is set and is a no-op
otherwise. It does not look at the input queue. -/
def notify (s : State) : State :=
  if s.retry then (s.setRetry false).setSeq .running else s

/-- The host appends one input code (20_memory.md R54). -/
def enqueue (code : Word) (s : State) : State := s.setInq (s.inq ++ [code])

/-- The explicit reset (70_reset_and_hazards.md R201): every piece of block state at its value of 10_state.md R37; the
host-owned queues are not touched (D10). It also makes an unusable machine usable again (R207). -/
def hostReset (gprInit : Vector Word 8) (s : State) : State := State.construct gprInit s.inq s.out s.draws

/-! ### The loader -/

/-- What the host gets back from a load. -/
inductive LoadResponse where
  /-- The payload stands in memory (R206). -/
  | success
  /-- The capacity error (R206). -/
  | inputTooLarge
  /-- No outcome: the stream is malformed, its range covers a device address, or the machine is unusable
  (R207 to R209). -/
  | refused
  deriving DecidableEq, Repr

/-- A word of an image: the even byte is bits 15:8 (R205). -/
def imageWord (hi lo : Byte) : Word := hi ++ lo

/-- The payload copied to consecutive cells from `a` on (R206). -/
def loadWords : Nat → List Byte → Memory → Memory
  | a, hi :: lo :: rest, m => loadWords (a + 1) rest (m.put a (imageWord hi lo))
  | _, _, m => m

/-- The four addresses no load may cover (R209). -/
def deviceAddresses : List Word := [addrKBSR, addrKBDR, addrDSR, addrDDR]

/-- Whether `base .. base+n-1` contains a device address (R209). -/
def coversDevice (base n : Nat) : Bool :=
  deviceAddresses.any fun d => decide (base ≤ d.toNat) && decide (d.toNat < base + n)

/-- `load(bytes)` (R206): the response and the state after it. The capacity check comes before the device check (log 18).
After any response but success the machine is unusable until reset, and its memory is any value until then (R207 to R209,
log 29). A load asked of an unusable machine is refused and does nothing (log 17). -/
def load (limit : Nat) (bytes : List Byte) (s : State) : LoadResponse × State :=
  let unusable := s.freeMemory.setUsable false
  if s.usable then
    match bytes with
    | hi :: lo :: payload =>
      let base := (imageWord hi lo).toNat
      let n := payload.length / 2
      if payload.length % 2 = 1 then (.refused, unusable)
      else if limit < base + n then (.inputTooLarge, unusable)
      else if coversDevice base n then (.refused, unusable)
      else (.success, s.setMem (loadWords base payload s.mem))
    | _ => (.refused, unusable)
  else (.refused, s)

/-! ### All the moves that change the state -/

/-- A host move of 70_reset_and_hazards.md R212 that changes the state. -/
inductive HostMove where
  | enqueue (code : Word)
  | notify
  | reset
  | load (bytes : List Byte)
  deriving DecidableEq, Repr

/-- The state after a host move, on an instance with parameters `p`. -/
def hostMove (p : Config.Params) (m : HostMove) (s : State) : State :=
  match m with
  | .enqueue code => enqueue code s
  | .notify => notify s
  | .reset => hostReset p.gprInit s
  | .load bytes => (load p.loaderLimit bytes s).2

/-! ### Batches -/

/-- One batch of at most `quota` steps (40_execution_cycle.md R111): it ends early when the machine has halted, waits for
input or has faulted. -/
def runBatch : Nat → State → Host.Outcome State Fault Refusal
  | 0, s => .next s
  | quota + 1, s =>
    match step s with
    | .next t => if t.seq = .running then runBatch quota t else .next t
    | .fault reason => .fault reason
    | .refused reason => .refused reason

/-- The batch of an instance with parameters `p` (00_scope.md R8). -/
def hostBatch (p : Config.Params) (s : State) : Host.Outcome State Fault Refusal := runBatch p.batchQuota s

/-! ### Observation (20_memory.md R63, R212, D26; log 24) -/

/-- Whether the registers and memory mean something: not while the machine is unusable (R207), nor once it has faulted
(40_execution_cycle.md R115). -/
def State.meaningful (s : State) : Bool :=
  match s.seq with
  | .running | .awaitingInput | .halted => s.usable
  | .faulted _ => false

/-- A plain cell as the host sees it: without side effect, and not at all where the contents mean nothing. -/
def observeCell (a : Word) (s : State) : Option Word :=
  if s.meaningful && target a == .plain then some (s.mem.get a.toNat) else none

/-- A general register as the host sees it. -/
def observeReg (r : Reg) (s : State) : Option Word :=
  if s.meaningful then some (s.reg r) else none

/-- The program counter and the status register as the host sees them. -/
def observeControl (s : State) : Option (Word × Word) :=
  if s.meaningful then some (s.pc, s.cc) else none

/-- The output as the host sees it: its own, so a fault does not take it away, but none while the machine is unusable
(R207). -/
def observeOut (s : State) : Option (List Word) := if s.usable then some s.out else none

/-! ### The image writer (70_reset_and_hazards.md R211) -/

/-- The two bytes of a word, big-endian (R205). -/
def wordBytes (w : Word) : List Byte := [w.extractLsb' 8 8, w.extractLsb' 0 8]

/-- The words of the `n` cells from `a` on, as bytes. -/
def cellBytes (m : Memory) : Nat → Nat → List Byte
  | _, 0 => []
  | a, n + 1 => wordBytes (m.get a) ++ cellBytes m (a + 1) n

/-- The image of the `n` cells from `base` on, in the format of R205. -/
def imageOf (m : Memory) (base : Word) (n : Nat) : List Byte := wordBytes base ++ cellBytes m base.toNat n

end Sys2Proof.Machine
end

