-- ==== Sys2Proof/Safety.lean ====
section
/-! DEFINITION. The terms claims are stated in: the invariant of the machine, the reachable states of machine and host
together, the classes of instructions the spec's whole-machine rules name, and what "unchanged" means. -/

namespace Sys2Proof.Machine

/-! ### The invariant -/

/-- A fatal reason as the block can record it (60_exceptions.md R170): a read-only device register's address, or a word
of the opcode that raised it. -/
def Fault.legal : Fault → Bool
  | .readOnlyDeviceWrite a => a == addrKBSR || a == addrKBDR || a == addrDSR
  | .unimplementedRTI w => opField w == 0x8#4
  | .unimplementedReserved w => opField w == 0xD#4

/-- A sequencer state as the block can enter it. -/
def Seq.legal : Seq → Bool
  | .running | .awaitingInput | .halted => true
  | .faulted reason => reason.legal

/-- No cell behind a device address is listed (20_memory.md R46). -/
def Memory.noDeviceCell (m : Memory) : Bool := m.all fun cell => !(deviceAddresses.any fun d => d.toNat == cell.1)

/-- `cc` is one of 0x0001, 0x0002 and 0x0004 (10_state.md R26). -/
abbrev State.ccOneHot (s : State) : Prop := s.cc = 0x0001 ∨ s.cc = 0x0002 ∨ s.cc = 0x0004

/-- The invariant of the machine: stored cells in canonical form and none behind a device address, a one-hot condition
code, the retry flag set exactly while waiting for input (10_state.md R34), and a legal fault reason. -/
abbrev State.Inv (s : State) : Prop :=
  s.mem.wf = true ∧ s.mem.noDeviceCell = true ∧ s.ccOneHot ∧ (s.retry = true ↔ s.seq = .awaitingInput) ∧
    s.seq.legal = true

/-- The states a machine instance with parameters `p` reaches: it is constructed with collaborators the host supplies,
and then CPU steps and host moves follow in any order (40_execution_cycle.md R111, D9), whatever the free values drawn
(log 29). -/
inductive Reachable (p : Config.Params) : State → Prop where
  | constructed (inq out : List Word) (draws : Nat) : Reachable p (State.construct p.gprInit inq out draws)
  | cpu {s t : State} : Reachable p s → step s = .next t → Reachable p t
  | host {s : State} (m : HostMove) : Reachable p s → Reachable p (hostMove p m s)

/-! ### When an instruction runs -/

/-- The run bit of the MCR cell (10_state.md R28). -/
def State.runSet (s : State) : Bool := runBit (s.mem.get addrMCR.toNat)

/-- The CPU takes an instruction step: usable, Running and RUN set (40_execution_cycle.md R101, R102). -/
abbrev State.ready (s : State) : Prop := s.usable = true ∧ s.seq = .running ∧ s.runSet = true

/-- The addresses whose write is a contract violation (20_memory.md R43). -/
abbrev readOnlyAddress (a : Word) : Prop := a = addrKBSR ∨ a = addrKBDR ∨ a = addrDSR

/-- The four addresses the memory access unit redirects (20_memory.md R45). -/
abbrev deviceAddress (a : Word) : Prop := a ∈ deviceAddresses

end Sys2Proof.Machine

namespace Sys2Proof

/-! ### Classes of instructions -/

/-- The general register an instruction writes, if any (10_state.md R22). TRAP x20 writes R0. -/
def Instr.writtenReg : Instr → Option Reg
  | .add dr _ _ | .addi dr _ _ | .and dr _ _ | .andi dr _ _ | .not dr _ | .ld dr _ | .ldi dr _ | .ldr dr _ _
  | .lea dr _ => some dr
  | .jsr _ | .jsrr _ => some 7
  | .trap trapvect8 => if trapvect8 = getcVector then some 0 else some 7
  | .trapGetc => some 0
  | .br _ _ | .jmp _ | .st _ _ | .sti _ _ | .str _ _ _ | .rti _ | .reserved _ => none

/-- The instructions that set the condition code (10_state.md R27). -/
def Instr.setsCc : Instr → Bool
  | .add _ _ _ | .addi _ _ _ | .and _ _ _ | .andi _ _ _ | .not _ _ | .ld _ _ | .ldi _ _ | .ldr _ _ _ | .lea _ _ => true
  | .br _ _ | .jmp _ | .jsr _ | .jsrr _ | .st _ _ | .sti _ _ | .str _ _ _ | .trap _ | .trapGetc | .rti _
  | .reserved _ => false

/-- The instructions that write memory (20_memory.md R41). -/
def Instr.isStore : Instr → Bool
  | .st _ _ | .sti _ _ | .str _ _ _ => true
  | .add _ _ _ | .addi _ _ _ | .and _ _ _ | .andi _ _ _ | .not _ _ | .ld _ _ | .ldi _ _ | .ldr _ _ _ | .lea _ _
  | .br _ _ | .jmp _ | .jsr _ | .jsrr _ | .trap _ | .trapGetc | .rti _ | .reserved _ => false

/-- The branches and jumps (42_control.md R134). -/
def Instr.isTransfer : Instr → Bool
  | .br _ _ | .jmp _ | .jsr _ | .jsrr _ | .trap _ => true
  | .add _ _ _ | .addi _ _ _ | .and _ _ _ | .andi _ _ _ | .not _ _ | .ld _ _ | .ldi _ _ | .ldr _ _ _ | .lea _ _
  | .st _ _ | .sti _ _ | .str _ _ _ | .trapGetc | .rti _ | .reserved _ => false

/-- TRAP with vector 0x20, in either of its two terms (44_trap_and_unimplemented.md R160). -/
def Instr.isGetc : Instr → Bool
  | .trapGetc => true
  | .trap trapvect8 => trapvect8 == getcVector
  | .add _ _ _ | .addi _ _ _ | .and _ _ _ | .andi _ _ _ | .not _ _ | .ld _ _ | .ldi _ _ | .ldr _ _ _ | .lea _ _
  | .st _ _ | .sti _ _ | .str _ _ _ | .br _ _ | .jmp _ | .jsr _ | .jsrr _ | .rti _ | .reserved _ => false

/-- The instructions that can raise a fault (60_exceptions.md R170). -/
def Instr.canFault : Instr → Bool
  | .st _ _ | .sti _ _ | .str _ _ _ | .rti _ | .reserved _ => true
  | .add _ _ _ | .addi _ _ _ | .and _ _ _ | .andi _ _ _ | .not _ _ | .ld _ _ | .ldi _ _ | .ldr _ _ _ | .lea _ _
  | .br _ _ | .jmp _ | .jsr _ | .jsrr _ | .trap _ | .trapGetc => false

end Sys2Proof

namespace Sys2Proof.Machine

/-! ### What stays as it was -/

/-- Every stored cell reads as before. -/
abbrev SameMemory (s t : State) : Prop := ∀ a : Nat, t.mem.get a = s.mem.get a

/-- Every general register is as before. -/
abbrev SameRegs (s t : State) : Prop := ∀ q : Reg, t.reg q = s.reg q

/-- Every general register but `r` is as before. -/
abbrev SameRegsBut (r : Reg) (s t : State) : Prop := ∀ q : Reg, q ≠ r → t.reg q = s.reg q

/-- The collaborators are as before. -/
abbrev SameQueues (s t : State) : Prop := t.inq = s.inq ∧ t.out = s.out

/-- The sequencer state, the retry flag and the usable mark are as before. -/
abbrev SameSequencer (s t : State) : Prop := t.seq = s.seq ∧ t.retry = s.retry ∧ t.usable = s.usable

/-- The condition code says of `v` what 10_state.md R25 says: zero iff the value is 0, negative iff bit 15 is set, positive
otherwise. Which bits hold the three flags is decided in `State.flagN`, `State.flagZ` and `State.flagP` (log 6). -/
abbrev FlagsOf (v : Word) (t : State) : Prop :=
  (t.flagZ = true ↔ v = 0) ∧ (t.flagN = true ↔ v.getLsbD 15 = true) ∧
    (t.flagP = true ↔ v ≠ 0 ∧ v.getLsbD 15 = false)

/-- `setcc(v)` has replaced the whole status register, and the flags are those of `v` (10_state.md R25, R27). -/
abbrev CcSetFrom (v : Word) (s t : State) : Prop := t.cc = (s.setcc v).cc ∧ FlagsOf v t

/-- What ADD, AND, NOT and LEA do: `dr` holds `v`, the condition code is that of `v`, and nothing else has changed. -/
abbrev ResultWritten (dr : Reg) (v : Word) (s t : State) : Prop :=
  t.reg dr = v ∧ CcSetFrom v s t ∧ SameRegsBut dr s t ∧ t.pc = s.pc ∧ SameMemory s t ∧ SameQueues s t ∧ SameSequencer s t

/-- What a load of `v` leaves, where its reads leave the input queue as `inq`: as `ResultWritten`, but for the queue. -/
abbrev LoadedInto (dr : Reg) (v : Word) (inq : List Word) (s t : State) : Prop :=
  t.reg dr = v ∧ CcSetFrom v s t ∧ SameRegsBut dr s t ∧ t.pc = s.pc ∧ SameMemory s t ∧ t.inq = inq ∧ t.out = s.out ∧
    SameSequencer s t

/-- What a store of `v` at `a` leaves, where the instruction's reads leave the input queue as `inq`: at DDR the code is
output and no cell changes; elsewhere the cell at `a` holds `v`, every other cell is as before and nothing is output. -/
abbrev StoredAt (a v : Word) (inq : List Word) (s t : State) : Prop :=
  SameRegs s t ∧ t.pc = s.pc ∧ t.cc = s.cc ∧ t.inq = inq ∧ SameSequencer s t ∧
    (if a = addrDDR then t.out = s.out ++ [v] ∧ SameMemory s t
     else t.out = s.out ∧ t.mem.get a.toNat = v ∧ ∀ b : Nat, b ≠ a.toNat → t.mem.get b = s.mem.get b)

/-- The run has ended in a fault with this reason. Only the reason, the collaborators and the retry flag are spoken of:
no claim rests on a faulted machine's registers or memory (40_execution_cycle.md R115). -/
abbrev FaultedWith (reason : Fault) (inq : List Word) (s t : State) : Prop :=
  t.seq = .faulted reason ∧ t.inq = inq ∧ t.out = s.out ∧ t.retry = s.retry ∧ t.usable = s.usable

/-- A load that did not succeed has left the machine unusable. Registers, queues and sequencer are as before (a load
changes no register, 70_reset_and_hazards.md R206); nothing is said of the memory (R207). -/
abbrev MadeUnusable (s t : State) : Prop :=
  t.usable = false ∧ SameRegs s t ∧ t.pc = s.pc ∧ t.cc = s.cc ∧ SameQueues s t ∧ t.seq = s.seq ∧ t.retry = s.retry

end Sys2Proof.Machine
end

