-- ==== Sys2Proof/Certificates/Slice0/Obligations.lean ====
section
/-! DEFINITION. The statements for the provers. Each docstring names the rule of spec/ it formalises. In statements about
`exec`, `s.pc` is the incremented program counter, the address of the word after the instruction
(40_execution_cycle.md R103). -/

open Sys2Proof Sys2Proof.Machine

/-! ## Encoding (30_encoding.md; the opcode numbers and field places are the spec's decision D2, log 5) -/

/-- Decoding the word of any well-formed instruction gives it back, every operand at every value (R72 to R85). -/
def Obligations.DecodeOfEncode : Prop :=
  ∀ i : Instr, i.wf = true → decode (encode i) = i

/-- Every word decodes to a well-formed instruction, and the canonical word of that instruction means the same
(R86, R88). -/
def Obligations.DecodedWordsReencode : Prop :=
  ∀ w : Word, (decode w).wf = true ∧ decode (encode (decode w)) = decode w

/-- Every word belongs to the opcode-table row of the instruction it decodes to, and to no other row, except that a
TRAP x20 word also belongs to the general TRAP row, over which TRAP_GETC takes priority (R88). -/
def Obligations.EveryWordHasOneRow : Prop :=
  ∀ w : Word,
    (∃ row ∈ opcodeRows, row.matches w = true ∧ row.mnemonic = (decode w).mnemonic) ∧
    ∀ row ∈ opcodeRows, row.matches w = true →
      row.mnemonic = (decode w).mnemonic ∨ (row.mnemonic = "TRAP" ∧ decode w = .trapGetc)

/-- The bits marked '-' in the formats change nothing (R86; the spec's decision D4, log 7). -/
def Obligations.IgnoredBitsAreNotDecoded : Prop :=
  (∀ (dr sr1 sr2 : Reg) (x : BitVec 2), decode (0x1#4 ++ dr ++ sr1 ++ 0#1 ++ x ++ sr2) = .add dr sr1 sr2) ∧
  (∀ (dr sr1 sr2 : Reg) (x : BitVec 2), decode (0x5#4 ++ dr ++ sr1 ++ 0#1 ++ x ++ sr2) = .and dr sr1 sr2) ∧
  (∀ (dr sr : Reg) (x : BitVec 6), decode (0x9#4 ++ dr ++ sr ++ x) = .not dr sr) ∧
  (∀ (baseR : Reg) (x : BitVec 3) (y : BitVec 6), decode (0xC#4 ++ x ++ baseR ++ y) = .jmp baseR) ∧
  (∀ (baseR : Reg) (x : BitVec 2) (y : BitVec 6), decode (0x4#4 ++ 0#1 ++ x ++ baseR ++ y) = .jsrr baseR) ∧
  (∀ (v : BitVec 8) (x : BitVec 4), decode (0xF#4 ++ x ++ v) = if v = 0x20 then .trapGetc else .trap v)

/-- A few words written out in the spec's examples decode to the instructions they stand for (sanity). -/
def Obligations.SpecWordsDecode : Prop :=
  decode 0x1021 = .addi 0 0 1 ∧ decode 0x1001 = .add 0 0 1 ∧ decode 0x54A0 = .andi 2 2 0 ∧ decode 0x927F = .not 1 1 ∧
  decode 0x0402 = .br 0b010 2 ∧ decode 0xC1C0 = .jmp 7 ∧ decode 0x4803 = .jsr 3 ∧ decode 0x4080 = .jsrr 2 ∧
  decode 0x2203 = .ld 1 3 ∧ decode 0xB004 = .sti 0 4 ∧ decode 0x7201 = .str 1 0 1 ∧ decode 0xF120 = .trapGetc ∧
  decode 0xF025 = .trap 0x25

/-! ## The step and the sequencer (40_execution_cycle.md) -/

/-- When the run check passes, the step fetches the word at `pc` through the memory access unit, increments `pc` mod 2^16
and executes the decoded instruction; where `pc` names a plain cell, the fetch changes nothing else (R103, R104). -/
def Obligations.StepRunsDecodedInstruction : Prop :=
  ∀ s : State, s.ready →
    step s = exec (decode (memRead s.pc s).1) ((memRead s.pc s).2.setPc (s.pc + 1)) ∧
    ∀ i : Instr, ¬ deviceAddress s.pc → decode (s.mem.get s.pc.toNat) = i → step s = exec i (s.setPc (s.pc + 1))

/-- The run check comes first: RUN clear halts with no fetch and no other change, RUN set goes on to the fetch (R102). -/
def Obligations.RunCheckComesFirst : Prop :=
  ∀ s : State, s.usable = true → s.seq = .running →
    ((s.mem.get 0xFFFE).getLsbD 15 = false → step s = .next (s.setSeq .halted)) ∧
    ((s.mem.get 0xFFFE).getLsbD 15 = true → step s = fetchAndExecute s)

/-- Only a Running machine steps (R101): a waiting or halted one stays exactly as it is, and a faulted one answers its
reason. That a step asked of them is answered so, and not otherwise, is the model's choice (log 12, log 13). -/
def Obligations.NoStepUnlessRunning : Prop :=
  ∀ s : State, s.usable = true →
    (s.seq = .awaitingInput → step s = .next s) ∧ (s.seq = .halted → step s = .next s) ∧
    ∀ reason : Fault, s.seq = .faulted reason → step s = .fault reason

/-- After a failed or refused load every step, every observation and every further load is refused, no host move but a
reset makes the machine usable again, and a reset does (70_reset_and_hazards.md R207; the spec's decision D14; that
enqueue and notify still act and a further load does nothing is the model's choice, log 17). -/
def Obligations.UnusableMachineRefusesUntilReset : Prop :=
  ∀ s : State, s.usable = false →
    step s = .refused .unusableUntilReset ∧
    (∀ a : Word, observeCell a s = none) ∧ (∀ r : Reg, observeReg r s = none) ∧ observeControl s = none ∧
    observeOut s = none ∧ (∀ (limit : Nat) (bytes : List Byte), load limit bytes s = (.refused, s)) ∧
    (∀ (p : Config.Params) (m : HostMove), m ≠ .reset → (hostMove p m s).usable = false) ∧
    ∀ g : Vector Word 8, (hostReset g s).usable = true

/-- TRAP x20 without input, as a whole step: `pc` is back at the TRAP, the retry flag is set, the machine waits, and
nothing else differs from the state after the fetch, which for a plain `pc` is the state before the step (R106; the
first sentence of R161's second point). -/
def Obligations.GetcWithoutInputRewinds : Prop :=
  ∀ s : State, s.ready → (decode (memRead s.pc s).1).isGetc = true → (memRead s.pc s).2.inq = [] →
    step s = .next (((memRead s.pc s).2.setRetry true).setSeq .awaitingInput) ∧
    (¬ deviceAddress s.pc → step s = .next ((s.setRetry true).setSeq .awaitingInput))

/-- The wait ends transparently: after TRAP x20 found no input, the machine stays until the host enqueues a code and
notifies; the next step then takes the code into R0 and goes on at the next word (R110, 44_trap_and_unimplemented.md
R161, 95_test_vectors.md E6; that R7 and `cc` are unchanged is the spec's decision D8, log 9). -/
def Obligations.GetcResumesAfterNotify : Prop :=
  ∀ (s : State) (code : Word), s.ready → ¬ deviceAddress s.pc → (decode (s.mem.get s.pc.toNat)).isGetc = true →
    s.inq = [] →
    ∃ t, step s = .next t ∧ step t = .next t ∧ step (enqueue code t) = .next (enqueue code t) ∧
      ∃ u, step (notify (enqueue code t)) = .next u ∧ u.reg 0 = code ∧ u.inq = [] ∧ u.pc = s.pc + 1 ∧
        SameRegsBut 0 s u ∧ u.cc = s.cc ∧ SameMemory s u ∧ u.out = s.out ∧ u.seq = .running ∧ u.retry = false

/-- The interrupt notification (R110): with the retry flag set it clears it and resumes, otherwise it changes nothing; it
is idempotent; it does nothing to a machine that has halted or faulted; and when the queue is still empty, the resumed
TRAP x20 waits again. -/
def Obligations.NotifyResumesOnlyAWait : Prop :=
  ∀ s : State,
    (s.retry = true → notify s = (s.setRetry false).setSeq .running) ∧ (s.retry = false → notify s = s) ∧
    notify (notify s) = notify s ∧
    (s.Inv → s.seq ≠ .awaitingInput → notify s = s) ∧
    (s.usable = true → s.runSet = true → s.seq = .awaitingInput → s.retry = true → ¬ deviceAddress s.pc →
      (decode (s.mem.get s.pc.toNat)).isGetc = true → s.inq = [] → step (notify s) = .next s)

/-- How an instruction can leave the sequencer state and the retry flag: as they were; waiting, by TRAP x20 with no input;
or faulted with a reason of the closed list, by a store, RTI or the reserved opcode (R104 to R108, 60_exceptions.md
R170). -/
def Obligations.SequencerChangesOnlyByRetryOrFault : Prop :=
  ∀ (i : Instr) (s t : State), exec i s = .next t →
    (t.seq = s.seq ∧ t.retry = s.retry) ∨
    (i.isGetc = true ∧ s.inq = [] ∧ t.seq = .awaitingInput ∧ t.retry = true) ∨
    (i.canFault = true ∧ t.retry = s.retry ∧ ∃ reason : Fault, t.seq = .faulted reason ∧ reason.legal = true)

/-- No instruction is left without an effect: on every state and operands it answers a next state, a fault's entry being
one (R104, 60_exceptions.md R171; the form of a fault's entry is the model's choice, log 12). -/
def Obligations.EveryInstructionHasANextState : Prop :=
  ∀ (i : Instr) (s : State), ∃ t, exec i s = .next t

/-! ## Operate instructions and LEA (41_operate.md, 43_load_store.md R144); the places of N, Z and P in the status
register are the spec's decision D3 (log 6) -/

/-- ADD, both forms: `dr` holds the sum mod 2^16 of the old operands, the condition code is that of the sum, and nothing
else changes (R120). -/
def Obligations.AddWritesTheSum : Prop :=
  ∀ (s : State) (dr sr1 sr2 : Reg) (imm5 : BitVec 5),
    (∃ t, exec (.add dr sr1 sr2) s = .next t ∧ ResultWritten dr (s.reg sr1 + s.reg sr2) s t) ∧
    (∃ t, exec (.addi dr sr1 imm5) s = .next t ∧ ResultWritten dr (s.reg sr1 + sext5 imm5) s t)

/-- AND, both forms (R121). -/
def Obligations.AndWritesTheConjunction : Prop :=
  ∀ (s : State) (dr sr1 sr2 : Reg) (imm5 : BitVec 5),
    (∃ t, exec (.and dr sr1 sr2) s = .next t ∧ ResultWritten dr (s.reg sr1 &&& s.reg sr2) s t) ∧
    (∃ t, exec (.andi dr sr1 imm5) s = .next t ∧ ResultWritten dr (s.reg sr1 &&& sext5 imm5) s t)

/-- NOT (R122). -/
def Obligations.NotWritesTheComplement : Prop :=
  ∀ (s : State) (dr sr : Reg), ∃ t, exec (.not dr sr) s = .next t ∧ ResultWritten dr (~~~s.reg sr) s t

/-- LEA: the address itself, with no memory access, so that no input is consumed; it sets the condition code (R144). -/
def Obligations.LeaWritesTheAddress : Prop :=
  ∀ (s : State) (dr : Reg) (offset9 : BitVec 9),
    ∃ t, exec (.lea dr offset9) s = .next t ∧ ResultWritten dr (s.pc + sext9 offset9) s t

/-- `setcc` leaves exactly one flag, it agrees with the value, and the rest of the status register is 0 (10_state.md R24
to R26; the values 0x0001, 0x0002 and 0x0004 are the spec's decision D3, log 6). -/
def Obligations.SetccIsOneHotAndAgrees : Prop :=
  ∀ (s : State) (v : Word), (s.setcc v).ccOneHot ∧ FlagsOf v (s.setcc v)

/-- The extensions (00_scope.md R11): bit N-1 is copied upwards, the signed reading is that of the field, in the stated
range; the trap vector is filled with zeros. -/
def Obligations.ExtensionsKeepTheValue : Prop :=
  (∀ f : BitVec 5, (∀ k < 16, (sext5 f).getLsbD k = f.getLsbD (min k 4)) ∧ (sext5 f).toInt = f.toInt ∧
    -16 ≤ (sext5 f).toInt ∧ (sext5 f).toInt ≤ 15) ∧
  (∀ f : BitVec 6, (∀ k < 16, (sext6 f).getLsbD k = f.getLsbD (min k 5)) ∧ (sext6 f).toInt = f.toInt ∧
    -32 ≤ (sext6 f).toInt ∧ (sext6 f).toInt ≤ 31) ∧
  (∀ f : BitVec 9, (∀ k < 16, (sext9 f).getLsbD k = f.getLsbD (min k 8)) ∧ (sext9 f).toInt = f.toInt ∧
    -256 ≤ (sext9 f).toInt ∧ (sext9 f).toInt ≤ 255) ∧
  (∀ f : BitVec 11, (∀ k < 16, (sext11 f).getLsbD k = f.getLsbD (min k 10)) ∧ (sext11 f).toInt = f.toInt ∧
    -1024 ≤ (sext11 f).toInt ∧ (sext11 f).toInt ≤ 1023) ∧
  (∀ f : BitVec 8, (∀ k < 16, (zext8 f).getLsbD k = f.getLsbD k) ∧ (zext8 f).toNat = f.toNat)

/-! ## Control transfer (42_control.md) -/

/-- BR branches iff a requested condition meets the current one, and changes nothing but `pc` (R130; which mask bit goes
with which flag is the spec's decision D3, log 6). -/
def Obligations.BranchTakenIffConditionMet : Prop :=
  ∀ (s : State) (nzp : BitVec 3) (offset9 : BitVec 9),
    ∃ t, exec (.br nzp offset9) s = .next t ∧
      t.pc = (if (nzp.getLsbD 2 && s.flagN) || (nzp.getLsbD 1 && s.flagZ) || (nzp.getLsbD 0 && s.flagP)
        then s.pc + sext9 offset9 else s.pc) ∧
      SameRegs s t ∧ t.cc = s.cc ∧ SameMemory s t ∧ SameQueues s t ∧ SameSequencer s t

/-- BR with no condition requested is a no-op, as is every word from 0x0000 to 0x01FF; with all three requested it always
branches, because the condition code is one-hot (R130, 30_encoding.md R87, 10_state.md R26). -/
def Obligations.BranchMaskExtremes : Prop :=
  (∀ w : Word, w < 0x0200 → ∀ s : State, exec (decode w) s = .next s) ∧
  (∀ (s : State) (offset9 : BitVec 9), s.ccOneHot →
    exec (.br 0b111 offset9) s = .next (s.setPc (s.pc + sext9 offset9)))

/-- JMP: `pc` is the base register's value, and nothing else changes (R131). -/
def Obligations.JumpGoesToTheBaseRegister : Prop :=
  ∀ (s : State) (baseR : Reg),
    ∃ t, exec (.jmp baseR) s = .next t ∧ t.pc = s.reg baseR ∧ SameRegs s t ∧ t.cc = s.cc ∧ SameMemory s t ∧
      SameQueues s t ∧ SameSequencer s t

/-- JSR: R7 holds the return address and the offset is added to the incremented `pc` (R132). -/
def Obligations.JsrLinksAndBranches : Prop :=
  ∀ (s : State) (offset11 : BitVec 11),
    ∃ t, exec (.jsr offset11) s = .next t ∧ t.reg 7 = s.pc ∧ t.pc = s.pc + sext11 offset11 ∧ SameRegsBut 7 s t ∧
      t.cc = s.cc ∧ SameMemory s t ∧ SameQueues s t ∧ SameSequencer s t

/-- JSRR: R7 is written first and the base register is read after it, so JSRR R7 goes to the next word (R133; the order
for R7 is the spec's decision D20, log 10). -/
def Obligations.JsrrLinksThenReadsTheBase : Prop :=
  ∀ (s : State) (baseR : Reg),
    ∃ t, exec (.jsrr baseR) s = .next t ∧ t.reg 7 = s.pc ∧ t.pc = (if baseR = 7 then s.pc else s.reg baseR) ∧
      SameRegsBut 7 s t ∧ t.cc = s.cc ∧ SameMemory s t ∧ SameQueues s t ∧ SameSequencer s t

/-! ## Loads and stores (43_load_store.md); a load's address and a store's address may be any word, a device address
included -/

/-- LD: one read at `pc + PCoffset9`; `dr` and the condition code take the word read (R141). -/
def Obligations.LdLoadsPCRelative : Prop :=
  ∀ (s : State) (dr : Reg) (offset9 : BitVec 9),
    ∃ t, exec (.ld dr offset9) s = .next t ∧
      LoadedInto dr (memRead (s.pc + sext9 offset9) s).1 (memRead (s.pc + sext9 offset9) s).2.inq s t

/-- LDI: the pointer is read first, the data after it, each as a device access where its address is one (R142). -/
def Obligations.LdiLoadsThroughThePointer : Prop :=
  ∀ (s s' : State) (dr : Reg) (offset9 : BitVec 9) (p : Word), memRead (s.pc + sext9 offset9) s = (p, s') →
    ∃ t, exec (.ldi dr offset9) s = .next t ∧ LoadedInto dr (memRead p s').1 (memRead p s').2.inq s t

/-- LDR: one read at `x[baseR] + offset6`, the base taken before `dr` is written (R143). -/
def Obligations.LdrLoadsBaseOffset : Prop :=
  ∀ (s : State) (dr baseR : Reg) (offset6 : BitVec 6),
    ∃ t, exec (.ldr dr baseR offset6) s = .next t ∧
      LoadedInto dr (memRead (s.reg baseR + sext6 offset6) s).1 (memRead (s.reg baseR + sext6 offset6) s).2.inq s t

/-- ST: the write at `pc + PCoffset9`, output at DDR, the fault at KBSR, KBDR and DSR; no condition-code effect (R145). -/
def Obligations.StStoresPCRelative : Prop :=
  ∀ (s : State) (sr : Reg) (offset9 : BitVec 9),
    (s.mem.wf = true → ¬ readOnlyAddress (eaPCRelative offset9 s) →
      ∃ t, exec (.st sr offset9) s = .next t ∧ StoredAt (eaPCRelative offset9 s) (s.reg sr) s.inq s t) ∧
    (readOnlyAddress (eaPCRelative offset9 s) →
      ∃ t, exec (.st sr offset9) s = .next t ∧
        FaultedWith (.readOnlyDeviceWrite (eaPCRelative offset9 s)) s.inq s t)

/-- STI: the pointer is read first, with any side effect that read has, which stays also when the write faults (R146,
60_exceptions.md R175). -/
def Obligations.StiStoresThroughThePointer : Prop :=
  ∀ (s s' : State) (sr : Reg) (offset9 : BitVec 9) (p : Word), eaIndirect offset9 s = (p, s') →
    (s.mem.wf = true → ¬ readOnlyAddress p →
      ∃ t, exec (.sti sr offset9) s = .next t ∧ StoredAt p (s.reg sr) s'.inq s t) ∧
    (readOnlyAddress p →
      ∃ t, exec (.sti sr offset9) s = .next t ∧ FaultedWith (.readOnlyDeviceWrite p) s'.inq s t)

/-- STR: the write at `x[baseR] + offset6` (R147). -/
def Obligations.StrStoresBaseOffset : Prop :=
  ∀ (s : State) (sr baseR : Reg) (offset6 : BitVec 6),
    (s.mem.wf = true → ¬ readOnlyAddress (eaBaseOffset baseR offset6 s) →
      ∃ t, exec (.str sr baseR offset6) s = .next t ∧
        StoredAt (eaBaseOffset baseR offset6 s) (s.reg sr) s.inq s t) ∧
    (readOnlyAddress (eaBaseOffset baseR offset6 s) →
      ∃ t, exec (.str sr baseR offset6) s = .next t ∧
        FaultedWith (.readOnlyDeviceWrite (eaBaseOffset baseR offset6 s)) s.inq s t)

/-! ## TRAP, RTI and the reserved opcode (44_trap_and_unimplemented.md) -/

/-- TRAP with a vector other than 0x20: R7 holds the return address, `pc` the word of the vector cell, and nothing else
changes; with vector 0x20 it is TRAP_GETC (R160, R162, 60_exceptions.md R176). -/
def Obligations.TrapEntersTheServiceRoutine : Prop :=
  ∀ (s : State) (trapvect8 : BitVec 8),
    (trapvect8 ≠ 0x20 →
      ∃ t, exec (.trap trapvect8) s = .next t ∧ t.reg 7 = s.pc ∧ t.pc = s.mem.get trapvect8.toNat ∧
        SameRegsBut 7 s t ∧ t.cc = s.cc ∧ SameMemory s t ∧ SameQueues s t ∧ SameSequencer s t) ∧
    (trapvect8 = 0x20 → exec (.trap trapvect8) s = exec .trapGetc s)

/-- TRAP x20: with input pending the oldest code moves to R0 and nothing else changes; with none, `pc` is rewound, the
retry flag set, and the machine waits (R161, 40_execution_cycle.md R106; that R7 and `cc` are unchanged is the spec's
decision D8, log 9). -/
def Obligations.GetcTakesOneCodeOrWaits : Prop :=
  ∀ s : State,
    (∀ (code : Word) (rest : List Word), s.inq = code :: rest →
      ∃ t, exec .trapGetc s = .next t ∧ t.reg 0 = code ∧ t.inq = rest ∧ SameRegsBut 0 s t ∧ t.pc = s.pc ∧
        t.cc = s.cc ∧ SameMemory s t ∧ t.out = s.out ∧ SameSequencer s t) ∧
    (s.inq = [] →
      ∃ t, exec .trapGetc s = .next t ∧ t.pc = s.pc - 1 ∧ t.retry = true ∧ t.seq = .awaitingInput ∧ SameRegs s t ∧
        t.cc = s.cc ∧ SameMemory s t ∧ SameQueues s t ∧ t.usable = s.usable)

/-- RTI and the reserved opcode always end the run, with two distinct reasons, each recording the instruction word, and
consume and output nothing (R164, R165, 40_execution_cycle.md R107; the recorded word is the spec's decision D12,
log 12). Nothing is claimed of the registers and memory of the faulted machine (R115). -/
def Obligations.UnimplementedOpcodesFault : Prop :=
  (∀ (s : State) (low12 : BitVec 12),
    (∃ t, exec (.rti low12) s = .next t ∧ FaultedWith (.unimplementedRTI (0x8#4 ++ low12)) s.inq s t) ∧
    (∃ t, exec (.reserved low12) s = .next t ∧ FaultedWith (.unimplementedReserved (0xD#4 ++ low12)) s.inq s t)) ∧
  (∀ (s : State) (w : Word), s.ready → (memRead s.pc s).1 = w →
    (w.extractLsb' 12 4 = 0x8#4 → ∃ t, step s = .next t ∧ t.seq = .faulted (.unimplementedRTI w)) ∧
    (w.extractLsb' 12 4 = 0xD#4 → ∃ t, step s = .next t ∧ t.seq = .faulted (.unimplementedReserved w)))

/-! ## The memory access unit (20_memory.md) -/

/-- What a read gives and what it changes (R42; that bits 14:0 of KBSR and DSR read 0 is the spec's decision D5,
log 8). -/
def Obligations.ReadsGiveDeviceOrStoredValues : Prop :=
  ∀ s : State,
    (s.inq = [] → memRead 0xFE00 s = (0x0000, s) ∧ memRead 0xFE02 s = (0x0000, s)) ∧
    (∀ (code : Word) (rest : List Word), s.inq = code :: rest →
      memRead 0xFE00 s = (0x8000, s) ∧ memRead 0xFE02 s = (code, s.setInq rest)) ∧
    memRead 0xFE04 s = (0x8000, s) ∧ memRead 0xFE06 s = (0x0000, s) ∧
    ∀ a : Word, a ≠ 0xFE00 → a ≠ 0xFE02 → a ≠ 0xFE04 → a ≠ 0xFE06 → memRead a s = (s.mem.get a.toNat, s)

/-- What a write does: the fault at KBSR, KBDR and DSR whatever the value, one code output at DDR, and elsewhere one cell
stored, MCR included (R43, R44). -/
def Obligations.WritesFaultOutputOrStore : Prop :=
  ∀ (s : State) (a v : Word),
    (a = 0xFE00 ∨ a = 0xFE02 ∨ a = 0xFE04 → memWrite a v s = .error (.readOnlyDeviceWrite a)) ∧
    (a = 0xFE06 → memWrite a v s = .ok (s.setOut (s.out ++ [v]))) ∧
    (a ≠ 0xFE00 → a ≠ 0xFE02 → a ≠ 0xFE04 → a ≠ 0xFE06 →
      memWrite a v s = .ok (s.setMem (s.mem.put a.toNat v)))

/-- A plain read returns the latest plain write to the same address, and a write leaves every other plain address and
every device read as it was (R57, R45). -/
def Obligations.ReadReturnsTheLatestWrite : Prop :=
  ∀ (s t : State) (a v : Word), s.mem.wf = true → ¬ deviceAddress a → memWrite a v s = .ok t →
    memRead a t = (v, t) ∧ ∀ b : Word, b ≠ a → (memRead b t).1 = (memRead b s).1

/-- Two KBDR reads take two codes in order; a third finds the queue as they left it (R51, 70_reset_and_hazards.md
R214). -/
def Obligations.KbdrReadsTakeCodesInOrder : Prop :=
  ∀ (s : State) (first second : Word) (rest : List Word), s.inq = first :: second :: rest →
    (memRead addrKBDR s).1 = first ∧ (memRead addrKBDR (memRead addrKBDR s).2).1 = second ∧
    (memRead addrKBDR (memRead addrKBDR s).2).2 = s.setInq rest

/-- A store into the next word is what the next step executes, with no fence in between (R61, 70_reset_and_hazards.md
R213). The word is not MCR, so that the run check still passes. -/
def Obligations.StoreIsSeenByTheNextFetch : Prop :=
  ∀ (s : State) (sr : Reg), s.ready → s.mem.wf = true → ¬ deviceAddress s.pc → ¬ deviceAddress (s.pc + 1) →
    s.pc + 1 ≠ 0xFFFE → s.mem.get s.pc.toNat = encode (.st sr 0) →
    ∃ t, step s = .next t ∧ t.pc = s.pc + 1 ∧ step t = exec (decode (s.reg sr)) (t.setPc (s.pc + 2))

/-- A store that clears RUN completes, and the machine halts at the next run check with `pc` at the word after the store
(10_state.md R28, R44, 40_execution_cycle.md R102). -/
def Obligations.ClearingRunHaltsAtTheNextCheck : Prop :=
  ∀ (s : State) (sr baseR : Reg) (offset9 : BitVec 9) (offset6 : BitVec 6),
    s.usable = true → s.seq = .running → s.mem.wf = true → (s.reg sr).getLsbD 15 = false →
    (eaPCRelative offset9 s = 0xFFFE →
      ∃ t, exec (.st sr offset9) s = .next t ∧ t.pc = s.pc ∧ step t = .next (t.setSeq .halted)) ∧
    ((eaIndirect offset9 s).1 = 0xFFFE →
      ∃ t, exec (.sti sr offset9) s = .next t ∧ t.pc = s.pc ∧ step t = .next (t.setSeq .halted)) ∧
    (eaBaseOffset baseR offset6 s = 0xFFFE →
      ∃ t, exec (.str sr baseR offset6) s = .next t ∧ t.pc = s.pc ∧ step t = .next (t.setSeq .halted))

/-! ## The invariant -/

/-- A constructed machine, and the model's reset state, satisfy the invariant, whatever R0 to R7 and the host's queues
hold (10_state.md R37). -/
def Obligations.ConstructionSatisfiesTheInvariant : Prop :=
  (∀ (g : Vector Word 8) (inq out : List Word) (draws : Nat), (State.construct g inq out draws).Inv) ∧ State.reset.Inv

/-- Every step keeps the invariant: the stored cells stay in canonical form with none behind a device address, the
condition code stays one-hot, the retry flag is set exactly while waiting, and a fault reason is of the closed list
(10_state.md R26, R34, 20_memory.md R46, 60_exceptions.md R170). -/
def Obligations.StepKeepsTheInvariant : Prop :=
  ∀ s t : State, s.Inv → step s = .next t → t.Inv

/-- Every host move keeps the invariant, a failed or refused load included (70_reset_and_hazards.md R201, R206). -/
def Obligations.HostMovesKeepTheInvariant : Prop :=
  ∀ (p : Config.Params) (m : HostMove) (s : State), p.wf → s.Inv → (hostMove p m s).Inv

/-- Every state that CPU steps and host moves reach, in any order and for every parameter value, satisfies the
invariant; in particular its condition code is one-hot (10_state.md R26, 40_execution_cycle.md R111). -/
def Obligations.ReachableStatesSatisfyTheInvariant : Prop :=
  ∀ (p : Config.Params) (s : State), p.wf → Reachable p s → s.Inv

/-! ## Rules about the whole machine; a run that has ended in a fault is left out, because no claim rests on its registers
or memory (40_execution_cycle.md R115) -/

/-- Only the instructions of 10_state.md R22 write a general register, each only its own. -/
def Obligations.OnlyNamedInstructionsWriteRegisters : Prop :=
  ∀ (i : Instr) (s t : State) (q : Reg), exec i s = .next t → (∀ reason : Fault, t.seq ≠ .faulted reason) →
    i.writtenReg ≠ some q → t.reg q = s.reg q

/-- Only ADD, AND, NOT, LD, LDI, LDR and LEA change the status register (10_state.md R27; for TRAP x20 it is the spec's
decision D8, log 9). -/
def Obligations.OnlySettersChangeTheConditionCode : Prop :=
  ∀ (i : Instr) (s t : State), exec i s = .next t → (∀ reason : Fault, t.seq ≠ .faulted reason) →
    i.setsCc = false → t.cc = s.cc

/-- Only ST, STI and STR change a cell or output a code (20_memory.md R41). -/
def Obligations.OnlyStoresChangeMemoryOrOutput : Prop :=
  ∀ (i : Instr) (s t : State), exec i s = .next t → (∀ reason : Fault, t.seq ≠ .faulted reason) →
    i.isStore = false → SameMemory s t ∧ t.out = s.out

/-- Only the branches and jumps write `pc`, apart from the rewind of a TRAP x20 without input (42_control.md R134). -/
def Obligations.OnlyTransfersWriteThePC : Prop :=
  ∀ (i : Instr) (s t : State), exec i s = .next t → (∀ reason : Fault, t.seq ≠ .faulted reason) →
    i.isTransfer = false → (i.isGetc = true → s.inq ≠ []) → t.pc = s.pc

/-- A step adds at most one code to the output, at its end (20_memory.md R53, 10_state.md R33). -/
def Obligations.StepOutputsAtMostOneCode : Prop :=
  ∀ s t : State, step s = .next t → t.out = s.out ∨ ∃ v : Word, t.out = s.out ++ [v]

/-- A step takes codes only from the front of the input queue, at most three: by the fetch, LDI's pointer read and LDI's
data read (20_memory.md R52, R54, R41). -/
def Obligations.StepTakesInputOnlyFromTheFront : Prop :=
  ∀ s t : State, step s = .next t → t.inq <:+ s.inq ∧ s.inq.length ≤ t.inq.length + 3

/-- The block never reads its output back (10_state.md R33): with other codes already output, a step does the same and
adds the same. Of a step that faults only the outcome, the queues and the flags are compared, for no claim rests on the
registers and memory after it (40_execution_cycle.md R115). -/
def Obligations.OutputIsNeverReadBack : Prop :=
  ∀ (s : State) (o : List Word),
    (∀ t, step s = .next t → ∃ (added : List Word) (u : State), t.out = s.out ++ added ∧
      step (s.setOut o) = .next u ∧ u.out = o ++ added ∧ u.inq = t.inq ∧ SameSequencer t u ∧
      ((∀ reason : Fault, t.seq ≠ .faulted reason) → u = t.setOut (o ++ added))) ∧
    (∀ reason, step s = .fault reason → step (s.setOut o) = .fault reason) ∧
    (∀ reason, step s = .refused reason → step (s.setOut o) = .refused reason)

/-! ## Reset, the loader and batches (70_reset_and_hazards.md) -/

/-- Reset returns every piece of block state to its reset value from any state, and leaves the host's queues alone (R201,
10_state.md R37; the spec's decisions D3, D6, D7 and D10, logs 3, 6, 8, 15). R0 to R7 take `gprInit`, whatever it is. -/
def Obligations.ResetReturnsToTheInitialState : Prop :=
  ∀ (g : Vector Word 8) (s : State),
    (hostReset g s).pc = 0x3000 ∧ (hostReset g s).flagZ = true ∧ (hostReset g s).flagN = false ∧
    (hostReset g s).flagP = false ∧ (∀ r : Reg, (hostReset g s).reg r = g[r.toNat]'r.isLt) ∧
    (∀ a : Nat, (hostReset g s).mem.get a = if a = 0xFFFE then 0x8000 else 0x0000) ∧ (hostReset g s).retry = false ∧
    (hostReset g s).seq = .running ∧ (hostReset g s).usable = true ∧ SameQueues s (hostReset g s)

/-- Only reset leaves Halted or Faulted: no CPU step and no other host move does (10_state.md R34, R201,
40_execution_cycle.md R110). -/
def Obligations.OnlyResetLeavesHaltedOrFaulted : Prop :=
  ∀ (p : Config.Params) (s : State), s.Inv → (s.seq = .halted ∨ ∃ reason : Fault, s.seq = .faulted reason) →
    (∀ t, step s = .next t → t.seq = s.seq) ∧ ∀ m : HostMove, m ≠ .reset → (hostMove p m s).seq = s.seq

/-- A load within the bound that covers no device address copies the payload, word by word and big-endian, to the cells
from the base on, and changes nothing else (R205, R206). -/
def Obligations.LoadCopiesThePayload : Prop :=
  ∀ (limit n : Nat) (hi lo : Byte) (payload : List Byte) (s : State),
    s.usable = true → s.mem.wf = true → limit ≤ 0x10000 → payload.length = 2 * n →
    (hi ++ lo : Word).toNat + n ≤ limit →
    (∀ d : Word, deviceAddress d → d.toNat < (hi ++ lo : Word).toNat ∨ (hi ++ lo : Word).toNat + n ≤ d.toNat) →
    ∃ t, load limit (hi :: lo :: payload) s = (.success, t) ∧
      (∀ k < n, t.mem.get ((hi ++ lo : Word).toNat + k) = payload.getD (2 * k) 0 ++ payload.getD (2 * k + 1) 0) ∧
      (∀ a : Nat, a < (hi ++ lo : Word).toNat ∨ (hi ++ lo : Word).toNat + n ≤ a → t.mem.get a = s.mem.get a) ∧
      SameRegs s t ∧ t.pc = s.pc ∧ t.cc = s.cc ∧ SameQueues s t ∧ SameSequencer s t

/-- A load over the bound answers InputTooLarge and leaves the machine unusable; no register changes, and nothing is claimed
of the memory, which is unspecified (R206, R207; the mark is the spec's decision D14, log 17). It covers ranges that also
cover a device address: that the bound is checked first there, where R209 read alone would refuse, is the model's choice
(log 18). -/
def Obligations.LoadOverTheBoundIsTooLarge : Prop :=
  ∀ (limit n : Nat) (hi lo : Byte) (payload : List Byte) (s : State),
    s.usable = true → payload.length = 2 * n → limit < (hi ++ lo : Word).toNat + n →
    ∃ t, load limit (hi :: lo :: payload) s = (.inputTooLarge, t) ∧ MadeUnusable s t

/-- A stream shorter than two bytes or of odd length, and a load within the bound that covers a device address, are
refused and leave the machine unusable, with nothing claimed of the memory (R208, R209; the spec's decisions D15 and D16,
log 18). -/
def Obligations.MalformedOrDeviceLoadsAreRefused : Prop :=
  ∀ (limit : Nat) (bytes : List Byte) (s : State), s.usable = true →
    (bytes.length < 2 ∨ bytes.length % 2 = 1 → ∃ t, load limit bytes s = (.refused, t) ∧ MadeUnusable s t) ∧
    ∀ (n : Nat) (hi lo : Byte) (payload : List Byte) (d : Word), bytes = hi :: lo :: payload →
      payload.length = 2 * n → (hi ++ lo : Word).toNat + n ≤ limit → deviceAddress d →
      (hi ++ lo : Word).toNat ≤ d.toNat → d.toNat < (hi ++ lo : Word).toNat + n →
      ∃ t, load limit bytes s = (.refused, t) ∧ MadeUnusable s t

/-- An image written out from memory loads back to the same words at the same addresses (R211). -/
def Obligations.ImageRoundTrip : Prop :=
  ∀ (limit n : Nat) (base : Word) (m : Memory) (s : State),
    s.usable = true → s.mem.wf = true → limit ≤ 0x10000 → base.toNat + n ≤ limit →
    (∀ d : Word, deviceAddress d → d.toNat < base.toNat ∨ base.toNat + n ≤ d.toNat) →
    ∃ t, load limit (imageOf m base n) s = (.success, t) ∧
      ∀ k < n, t.mem.get (base.toNat + k) = m.get (base.toNat + k)

/-- Batches only group steps: a batch is some number of steps, at most the quota; one that ends still Running has run
exactly its quota, so that only halting, waiting and a fault end it earlier; and where it is cut changes nothing
(40_execution_cycle.md R111). -/
def Obligations.BatchesOnlyGroupSteps : Prop :=
  (∀ (quota : Nat) (s : State), ∃ k ≤ quota, runBatch quota s = core.run k s) ∧
  (∀ (quota : Nat) (s t : State), runBatch quota s = .next t → t.seq = .running → core.run quota s = .next t) ∧
  (∀ (m n : Nat) (s t : State), s.seq = .running → runBatch m s = .next t →
    runBatch (m + n) s = if t.seq = .running then runBatch n t else .next t)

/-- What the host observes of a usable machine: its plain cells but no device address, its registers and its output, each
as the state holds it; of a faulted machine the output alone, because no claim rests on its registers and memory
(20_memory.md R63, R212, 40_execution_cycle.md R115; the spec's decisions D26 and D21, log 24). -/
def Obligations.ObservationShowsAUsableMachine : Prop :=
  ∀ s : State, s.usable = true →
    observeOut s = some s.out ∧
    ((∀ reason : Fault, s.seq ≠ .faulted reason) →
      (∀ a : Word, ¬ deviceAddress a → observeCell a s = some (s.mem.get a.toNat)) ∧
      (∀ a : Word, deviceAddress a → observeCell a s = none) ∧
      (∀ r : Reg, observeReg r s = some (s.reg r)) ∧ observeControl s = some (s.pc, s.cc)) ∧
    ∀ reason : Fault, s.seq = .faulted reason →
      (∀ a : Word, observeCell a s = none) ∧ (∀ r : Reg, observeReg r s = none) ∧ observeControl s = none
end

