-- ==== Sys2Proof/Laws/Decode.lean ====
section
/-! SUPPORT. The decoder by opcode field: one lemma for each row of 30_encoding.md R72, so that no later proof unfolds
`decode`; and how a field of a word is read off its bits. -/

namespace Sys2Proof

/-- A field has the value `f` when its bits are those of `f`. -/
theorem extractLsb'_of_bits {n : Nat} {w : Word} {start : Nat} {f : BitVec n}
    (h : ∀ k < n, w.getLsbD (start + k) = f.getLsbD k) : w.extractLsb' start n = f := by
  apply BitVec.eq_of_getLsbD_eq
  intro k hk
  rw [BitVec.getLsbD_extractLsb', decide_eq_true hk, Bool.true_and, h k hk]

variable {w : Word}

theorem decode_op0 (h : opField w = 0x0#4) : decode w = .br (field11to9 w) (offset9Field w) := by
  simp [decode, h]

theorem decode_op1 (h : opField w = 0x1#4) : decode w =
    if immFlag w then .addi (field11to9 w) (field8to6 w) (imm5Field w)
    else .add (field11to9 w) (field8to6 w) (field2to0 w) := by
  simp [decode, h]

theorem decode_op2 (h : opField w = 0x2#4) : decode w = .ld (field11to9 w) (offset9Field w) := by
  simp [decode, h]

theorem decode_op3 (h : opField w = 0x3#4) : decode w = .st (field11to9 w) (offset9Field w) := by
  simp [decode, h]

theorem decode_op4 (h : opField w = 0x4#4) : decode w =
    if longFlag w then .jsr (offset11Field w) else .jsrr (field8to6 w) := by
  simp [decode, h]

theorem decode_op5 (h : opField w = 0x5#4) : decode w =
    if immFlag w then .andi (field11to9 w) (field8to6 w) (imm5Field w)
    else .and (field11to9 w) (field8to6 w) (field2to0 w) := by
  simp [decode, h]

theorem decode_op6 (h : opField w = 0x6#4) : decode w = .ldr (field11to9 w) (field8to6 w) (offset6Field w) := by
  simp [decode, h]

theorem decode_op7 (h : opField w = 0x7#4) : decode w = .str (field11to9 w) (field8to6 w) (offset6Field w) := by
  simp [decode, h]

theorem decode_op8 (h : opField w = 0x8#4) : decode w = .rti (low12Field w) := by
  simp [decode, h]

theorem decode_op9 (h : opField w = 0x9#4) : decode w = .not (field11to9 w) (field8to6 w) := by
  simp [decode, h]

theorem decode_opA (h : opField w = 0xA#4) : decode w = .ldi (field11to9 w) (offset9Field w) := by
  simp [decode, h]

theorem decode_opB (h : opField w = 0xB#4) : decode w = .sti (field11to9 w) (offset9Field w) := by
  simp [decode, h]

theorem decode_opC (h : opField w = 0xC#4) : decode w = .jmp (field8to6 w) := by
  simp [decode, h]

theorem decode_opD (h : opField w = 0xD#4) : decode w = .reserved (low12Field w) := by
  simp [decode, h]

theorem decode_opE (h : opField w = 0xE#4) : decode w = .lea (field11to9 w) (offset9Field w) := by
  simp [decode, h]

theorem decode_opF (h : opField w = 0xF#4) : decode w =
    if trapvect8Field w = getcVector then .trapGetc else .trap (trapvect8Field w) := by
  simp [decode, h]

end Sys2Proof
end

