-- ==== Sys2Proof/Laws/State.lean ====
section
/-! SUPPORT. One lemma per field per update of `State`, each true by definition and a simp lemma, so that no later proof
unfolds a record update. -/

namespace Sys2Proof.Machine

variable (s : State)

/-! ### `setPc` -/

@[simp] theorem State.setPc_regs (v : Word) : (s.setPc v).regs = s.regs := rfl
@[simp] theorem State.setPc_pc (v : Word) : (s.setPc v).pc = v := rfl
@[simp] theorem State.setPc_cc (v : Word) : (s.setPc v).cc = s.cc := rfl
@[simp] theorem State.setPc_mem (v : Word) : (s.setPc v).mem = s.mem := rfl
@[simp] theorem State.setPc_retry (v : Word) : (s.setPc v).retry = s.retry := rfl
@[simp] theorem State.setPc_inq (v : Word) : (s.setPc v).inq = s.inq := rfl
@[simp] theorem State.setPc_out (v : Word) : (s.setPc v).out = s.out := rfl
@[simp] theorem State.setPc_seq (v : Word) : (s.setPc v).seq = s.seq := rfl
@[simp] theorem State.setPc_usable (v : Word) : (s.setPc v).usable = s.usable := rfl
@[simp] theorem State.setPc_draws (v : Word) : (s.setPc v).draws = s.draws := rfl
@[simp] theorem State.setPc_reg (v : Word) (r : Reg) : (s.setPc v).reg r = s.reg r := rfl

/-! ### `setCc` -/

@[simp] theorem State.setCc_regs (v : Word) : (s.setCc v).regs = s.regs := rfl
@[simp] theorem State.setCc_pc (v : Word) : (s.setCc v).pc = s.pc := rfl
@[simp] theorem State.setCc_cc (v : Word) : (s.setCc v).cc = v := rfl
@[simp] theorem State.setCc_mem (v : Word) : (s.setCc v).mem = s.mem := rfl
@[simp] theorem State.setCc_retry (v : Word) : (s.setCc v).retry = s.retry := rfl
@[simp] theorem State.setCc_inq (v : Word) : (s.setCc v).inq = s.inq := rfl
@[simp] theorem State.setCc_out (v : Word) : (s.setCc v).out = s.out := rfl
@[simp] theorem State.setCc_seq (v : Word) : (s.setCc v).seq = s.seq := rfl
@[simp] theorem State.setCc_usable (v : Word) : (s.setCc v).usable = s.usable := rfl
@[simp] theorem State.setCc_draws (v : Word) : (s.setCc v).draws = s.draws := rfl
@[simp] theorem State.setCc_reg (v : Word) (r : Reg) : (s.setCc v).reg r = s.reg r := rfl

/-! ### `setMem` -/

@[simp] theorem State.setMem_regs (m : Memory) : (s.setMem m).regs = s.regs := rfl
@[simp] theorem State.setMem_pc (m : Memory) : (s.setMem m).pc = s.pc := rfl
@[simp] theorem State.setMem_cc (m : Memory) : (s.setMem m).cc = s.cc := rfl
@[simp] theorem State.setMem_mem (m : Memory) : (s.setMem m).mem = m := rfl
@[simp] theorem State.setMem_retry (m : Memory) : (s.setMem m).retry = s.retry := rfl
@[simp] theorem State.setMem_inq (m : Memory) : (s.setMem m).inq = s.inq := rfl
@[simp] theorem State.setMem_out (m : Memory) : (s.setMem m).out = s.out := rfl
@[simp] theorem State.setMem_seq (m : Memory) : (s.setMem m).seq = s.seq := rfl
@[simp] theorem State.setMem_usable (m : Memory) : (s.setMem m).usable = s.usable := rfl
@[simp] theorem State.setMem_draws (m : Memory) : (s.setMem m).draws = s.draws := rfl
@[simp] theorem State.setMem_reg (m : Memory) (r : Reg) : (s.setMem m).reg r = s.reg r := rfl

/-! ### `setRetry` -/

@[simp] theorem State.setRetry_regs (b : Bool) : (s.setRetry b).regs = s.regs := rfl
@[simp] theorem State.setRetry_pc (b : Bool) : (s.setRetry b).pc = s.pc := rfl
@[simp] theorem State.setRetry_cc (b : Bool) : (s.setRetry b).cc = s.cc := rfl
@[simp] theorem State.setRetry_mem (b : Bool) : (s.setRetry b).mem = s.mem := rfl
@[simp] theorem State.setRetry_retry (b : Bool) : (s.setRetry b).retry = b := rfl
@[simp] theorem State.setRetry_inq (b : Bool) : (s.setRetry b).inq = s.inq := rfl
@[simp] theorem State.setRetry_out (b : Bool) : (s.setRetry b).out = s.out := rfl
@[simp] theorem State.setRetry_seq (b : Bool) : (s.setRetry b).seq = s.seq := rfl
@[simp] theorem State.setRetry_usable (b : Bool) : (s.setRetry b).usable = s.usable := rfl
@[simp] theorem State.setRetry_draws (b : Bool) : (s.setRetry b).draws = s.draws := rfl
@[simp] theorem State.setRetry_reg (b : Bool) (r : Reg) : (s.setRetry b).reg r = s.reg r := rfl

/-! ### `setInq` -/

@[simp] theorem State.setInq_regs (q : List Word) : (s.setInq q).regs = s.regs := rfl
@[simp] theorem State.setInq_pc (q : List Word) : (s.setInq q).pc = s.pc := rfl
@[simp] theorem State.setInq_cc (q : List Word) : (s.setInq q).cc = s.cc := rfl
@[simp] theorem State.setInq_mem (q : List Word) : (s.setInq q).mem = s.mem := rfl
@[simp] theorem State.setInq_retry (q : List Word) : (s.setInq q).retry = s.retry := rfl
@[simp] theorem State.setInq_inq (q : List Word) : (s.setInq q).inq = q := rfl
@[simp] theorem State.setInq_out (q : List Word) : (s.setInq q).out = s.out := rfl
@[simp] theorem State.setInq_seq (q : List Word) : (s.setInq q).seq = s.seq := rfl
@[simp] theorem State.setInq_usable (q : List Word) : (s.setInq q).usable = s.usable := rfl
@[simp] theorem State.setInq_draws (q : List Word) : (s.setInq q).draws = s.draws := rfl
@[simp] theorem State.setInq_reg (q : List Word) (r : Reg) : (s.setInq q).reg r = s.reg r := rfl

/-! ### `setOut` -/

@[simp] theorem State.setOut_regs (o : List Word) : (s.setOut o).regs = s.regs := rfl
@[simp] theorem State.setOut_pc (o : List Word) : (s.setOut o).pc = s.pc := rfl
@[simp] theorem State.setOut_cc (o : List Word) : (s.setOut o).cc = s.cc := rfl
@[simp] theorem State.setOut_mem (o : List Word) : (s.setOut o).mem = s.mem := rfl
@[simp] theorem State.setOut_retry (o : List Word) : (s.setOut o).retry = s.retry := rfl
@[simp] theorem State.setOut_inq (o : List Word) : (s.setOut o).inq = s.inq := rfl
@[simp] theorem State.setOut_out (o : List Word) : (s.setOut o).out = o := rfl
@[simp] theorem State.setOut_seq (o : List Word) : (s.setOut o).seq = s.seq := rfl
@[simp] theorem State.setOut_usable (o : List Word) : (s.setOut o).usable = s.usable := rfl
@[simp] theorem State.setOut_draws (o : List Word) : (s.setOut o).draws = s.draws := rfl
@[simp] theorem State.setOut_reg (o : List Word) (r : Reg) : (s.setOut o).reg r = s.reg r := rfl

/-! ### `setSeq` -/

@[simp] theorem State.setSeq_regs (q : Seq) : (s.setSeq q).regs = s.regs := rfl
@[simp] theorem State.setSeq_pc (q : Seq) : (s.setSeq q).pc = s.pc := rfl
@[simp] theorem State.setSeq_cc (q : Seq) : (s.setSeq q).cc = s.cc := rfl
@[simp] theorem State.setSeq_mem (q : Seq) : (s.setSeq q).mem = s.mem := rfl
@[simp] theorem State.setSeq_retry (q : Seq) : (s.setSeq q).retry = s.retry := rfl
@[simp] theorem State.setSeq_inq (q : Seq) : (s.setSeq q).inq = s.inq := rfl
@[simp] theorem State.setSeq_out (q : Seq) : (s.setSeq q).out = s.out := rfl
@[simp] theorem State.setSeq_seq (q : Seq) : (s.setSeq q).seq = q := rfl
@[simp] theorem State.setSeq_usable (q : Seq) : (s.setSeq q).usable = s.usable := rfl
@[simp] theorem State.setSeq_draws (q : Seq) : (s.setSeq q).draws = s.draws := rfl
@[simp] theorem State.setSeq_reg (q : Seq) (r : Reg) : (s.setSeq q).reg r = s.reg r := rfl

/-! ### `setUsable` -/

@[simp] theorem State.setUsable_regs (b : Bool) : (s.setUsable b).regs = s.regs := rfl
@[simp] theorem State.setUsable_pc (b : Bool) : (s.setUsable b).pc = s.pc := rfl
@[simp] theorem State.setUsable_cc (b : Bool) : (s.setUsable b).cc = s.cc := rfl
@[simp] theorem State.setUsable_mem (b : Bool) : (s.setUsable b).mem = s.mem := rfl
@[simp] theorem State.setUsable_retry (b : Bool) : (s.setUsable b).retry = s.retry := rfl
@[simp] theorem State.setUsable_inq (b : Bool) : (s.setUsable b).inq = s.inq := rfl
@[simp] theorem State.setUsable_out (b : Bool) : (s.setUsable b).out = s.out := rfl
@[simp] theorem State.setUsable_seq (b : Bool) : (s.setUsable b).seq = s.seq := rfl
@[simp] theorem State.setUsable_usable (b : Bool) : (s.setUsable b).usable = b := rfl
@[simp] theorem State.setUsable_draws (b : Bool) : (s.setUsable b).draws = s.draws := rfl
@[simp] theorem State.setUsable_reg (b : Bool) (r : Reg) : (s.setUsable b).reg r = s.reg r := rfl

/-! ### `setReg` -/

@[simp] theorem State.setReg_pc (r : Reg) (v : Word) : (s.setReg r v).pc = s.pc := rfl
@[simp] theorem State.setReg_cc (r : Reg) (v : Word) : (s.setReg r v).cc = s.cc := rfl
@[simp] theorem State.setReg_mem (r : Reg) (v : Word) : (s.setReg r v).mem = s.mem := rfl
@[simp] theorem State.setReg_retry (r : Reg) (v : Word) : (s.setReg r v).retry = s.retry := rfl
@[simp] theorem State.setReg_inq (r : Reg) (v : Word) : (s.setReg r v).inq = s.inq := rfl
@[simp] theorem State.setReg_out (r : Reg) (v : Word) : (s.setReg r v).out = s.out := rfl
@[simp] theorem State.setReg_seq (r : Reg) (v : Word) : (s.setReg r v).seq = s.seq := rfl
@[simp] theorem State.setReg_usable (r : Reg) (v : Word) : (s.setReg r v).usable = s.usable := rfl
@[simp] theorem State.setReg_draws (r : Reg) (v : Word) : (s.setReg r v).draws = s.draws := rfl

/-- Reading a register after a register write. -/
theorem State.reg_setReg (r q : Reg) (v : Word) : (s.setReg r v).reg q = if q = r then v else s.reg q := by
  simp only [State.reg, State.setReg, Vector.getElem_set, BitVec.toNat_inj, eq_comm]

@[simp] theorem State.reg_setReg_same (r : Reg) (v : Word) : (s.setReg r v).reg r = v := by
  simp [State.reg_setReg]

theorem State.reg_setReg_other {r q : Reg} (h : q ≠ r) (v : Word) : (s.setReg r v).reg q = s.reg q := by
  simp [State.reg_setReg, h]

/-! ### `setcc` -/

@[simp] theorem State.setcc_regs (v : Word) : (s.setcc v).regs = s.regs := rfl
@[simp] theorem State.setcc_pc (v : Word) : (s.setcc v).pc = s.pc := rfl
@[simp] theorem State.setcc_cc (v : Word) : (s.setcc v).cc = ccOf v := rfl
@[simp] theorem State.setcc_mem (v : Word) : (s.setcc v).mem = s.mem := rfl
@[simp] theorem State.setcc_retry (v : Word) : (s.setcc v).retry = s.retry := rfl
@[simp] theorem State.setcc_inq (v : Word) : (s.setcc v).inq = s.inq := rfl
@[simp] theorem State.setcc_out (v : Word) : (s.setcc v).out = s.out := rfl
@[simp] theorem State.setcc_seq (v : Word) : (s.setcc v).seq = s.seq := rfl
@[simp] theorem State.setcc_usable (v : Word) : (s.setcc v).usable = s.usable := rfl
@[simp] theorem State.setcc_draws (v : Word) : (s.setcc v).draws = s.draws := rfl
@[simp] theorem State.setcc_reg (v : Word) (r : Reg) : (s.setcc v).reg r = s.reg r := rfl

/-! ### `putOut` -/

@[simp] theorem State.putOut_regs (v : Word) : (s.putOut v).regs = s.regs := rfl
@[simp] theorem State.putOut_pc (v : Word) : (s.putOut v).pc = s.pc := rfl
@[simp] theorem State.putOut_cc (v : Word) : (s.putOut v).cc = s.cc := rfl
@[simp] theorem State.putOut_mem (v : Word) : (s.putOut v).mem = s.mem := rfl
@[simp] theorem State.putOut_retry (v : Word) : (s.putOut v).retry = s.retry := rfl
@[simp] theorem State.putOut_inq (v : Word) : (s.putOut v).inq = s.inq := rfl
@[simp] theorem State.putOut_out (v : Word) : (s.putOut v).out = s.out ++ [v] := rfl
@[simp] theorem State.putOut_seq (v : Word) : (s.putOut v).seq = s.seq := rfl
@[simp] theorem State.putOut_usable (v : Word) : (s.putOut v).usable = s.usable := rfl
@[simp] theorem State.putOut_draws (v : Word) : (s.putOut v).draws = s.draws := rfl
@[simp] theorem State.putOut_reg (v : Word) (r : Reg) : (s.putOut v).reg r = s.reg r := rfl

/-! ### `enterAwaitingInput` -/

@[simp] theorem State.enterAwaitingInput_regs : (s.enterAwaitingInput).regs = s.regs := rfl
@[simp] theorem State.enterAwaitingInput_pc : (s.enterAwaitingInput).pc = s.pc - 1 := rfl
@[simp] theorem State.enterAwaitingInput_cc : (s.enterAwaitingInput).cc = s.cc := rfl
@[simp] theorem State.enterAwaitingInput_mem : (s.enterAwaitingInput).mem = s.mem := rfl
@[simp] theorem State.enterAwaitingInput_retry : (s.enterAwaitingInput).retry = true := rfl
@[simp] theorem State.enterAwaitingInput_inq : (s.enterAwaitingInput).inq = s.inq := rfl
@[simp] theorem State.enterAwaitingInput_out : (s.enterAwaitingInput).out = s.out := rfl
@[simp] theorem State.enterAwaitingInput_seq : (s.enterAwaitingInput).seq = .awaitingInput := rfl
@[simp] theorem State.enterAwaitingInput_usable : (s.enterAwaitingInput).usable = s.usable := rfl
@[simp] theorem State.enterAwaitingInput_draws : (s.enterAwaitingInput).draws = s.draws := rfl
@[simp] theorem State.enterAwaitingInput_reg (r : Reg) : (s.enterAwaitingInput).reg r = s.reg r := rfl

/-! ### Free contents: only what stays has a lemma -/

@[simp] theorem State.freeMemory_regs : s.freeMemory.regs = s.regs := rfl
@[simp] theorem State.freeMemory_pc : s.freeMemory.pc = s.pc := rfl
@[simp] theorem State.freeMemory_cc : s.freeMemory.cc = s.cc := rfl
@[simp] theorem State.freeMemory_retry : s.freeMemory.retry = s.retry := rfl
@[simp] theorem State.freeMemory_inq : s.freeMemory.inq = s.inq := rfl
@[simp] theorem State.freeMemory_out : s.freeMemory.out = s.out := rfl
@[simp] theorem State.freeMemory_seq : s.freeMemory.seq = s.seq := rfl
@[simp] theorem State.freeMemory_usable : s.freeMemory.usable = s.usable := rfl
@[simp] theorem State.freeMemory_draws : s.freeMemory.draws = s.draws + 1 := rfl
@[simp] theorem State.freeMemory_reg (r : Reg) : s.freeMemory.reg r = s.reg r := rfl

@[simp] theorem State.freeContents_retry : (s.freeContents).retry = s.retry := rfl
@[simp] theorem State.freeContents_inq : (s.freeContents).inq = s.inq := rfl
@[simp] theorem State.freeContents_out : (s.freeContents).out = s.out := rfl
@[simp] theorem State.freeContents_seq : (s.freeContents).seq = s.seq := rfl
@[simp] theorem State.freeContents_usable : (s.freeContents).usable = s.usable := rfl
@[simp] theorem State.freeContents_draws : (s.freeContents).draws = s.draws + 1 := rfl

@[simp] theorem State.enterFault_retry (reason : Fault) : (s.enterFault reason).retry = s.retry := rfl
@[simp] theorem State.enterFault_inq (reason : Fault) : (s.enterFault reason).inq = s.inq := rfl
@[simp] theorem State.enterFault_out (reason : Fault) : (s.enterFault reason).out = s.out := rfl
@[simp] theorem State.enterFault_seq (reason : Fault) : (s.enterFault reason).seq = .faulted reason := rfl
@[simp] theorem State.enterFault_usable (reason : Fault) : (s.enterFault reason).usable = s.usable := rfl
@[simp] theorem State.enterFault_draws (reason : Fault) : (s.enterFault reason).draws = s.draws + 1 := rfl

/-! ### `link` -/

@[simp] theorem State.link_pc : s.link.pc = s.pc := rfl
@[simp] theorem State.link_cc : s.link.cc = s.cc := rfl
@[simp] theorem State.link_mem : s.link.mem = s.mem := rfl
@[simp] theorem State.link_retry : s.link.retry = s.retry := rfl
@[simp] theorem State.link_inq : s.link.inq = s.inq := rfl
@[simp] theorem State.link_out : s.link.out = s.out := rfl
@[simp] theorem State.link_seq : s.link.seq = s.seq := rfl
@[simp] theorem State.link_usable : s.link.usable = s.usable := rfl
@[simp] theorem State.link_draws : s.link.draws = s.draws := rfl

theorem State.link_reg (q : Reg) : s.link.reg q = if q = linkReg then s.pc else s.reg q :=
  State.reg_setReg s linkReg q s.pc

/-! ### `writeResult` -/

@[simp] theorem State.writeResult_pc (dr : Reg) (v : Word) : (s.writeResult dr v).pc = s.pc := rfl
@[simp] theorem State.writeResult_cc (dr : Reg) (v : Word) : (s.writeResult dr v).cc = ccOf v := rfl
@[simp] theorem State.writeResult_mem (dr : Reg) (v : Word) : (s.writeResult dr v).mem = s.mem := rfl
@[simp] theorem State.writeResult_retry (dr : Reg) (v : Word) : (s.writeResult dr v).retry = s.retry := rfl
@[simp] theorem State.writeResult_inq (dr : Reg) (v : Word) : (s.writeResult dr v).inq = s.inq := rfl
@[simp] theorem State.writeResult_out (dr : Reg) (v : Word) : (s.writeResult dr v).out = s.out := rfl
@[simp] theorem State.writeResult_seq (dr : Reg) (v : Word) : (s.writeResult dr v).seq = s.seq := rfl
@[simp] theorem State.writeResult_usable (dr : Reg) (v : Word) : (s.writeResult dr v).usable = s.usable := rfl
@[simp] theorem State.writeResult_draws (dr : Reg) (v : Word) : (s.writeResult dr v).draws = s.draws := rfl

theorem State.writeResult_reg (dr q : Reg) (v : Word) :
    (s.writeResult dr v).reg q = if q = dr then v else s.reg q :=
  State.reg_setReg s dr q v

@[simp] theorem State.writeResult_reg_same (dr : Reg) (v : Word) : (s.writeResult dr v).reg dr = v := by
  simp [State.writeResult_reg]

end Sys2Proof.Machine
end

