-- ==== Sys2Proof/Laws/Ops.lean ====
section
/-! SUPPORT. For each shared operation one lemma that says once everything it can do; proofs cite these instead of
unfolding the operation. -/

namespace Sys2Proof.Machine

/-! ### Targets (20_memory.md R45) -/

theorem target_kbsr : target addrKBSR = .kbsr := by decide
theorem target_kbdr : target addrKBDR = .kbdr := by decide
theorem target_dsr : target addrDSR = .dsr := by decide
theorem target_ddr : target addrDDR = .ddr := by decide
theorem target_mcr : target addrMCR = .plain := by decide

/-- What a target says of the address. -/
theorem target_cases (a : Word) :
    (target a = .kbsr ∧ a = addrKBSR) ∨ (target a = .kbdr ∧ a = addrKBDR) ∨ (target a = .dsr ∧ a = addrDSR) ∨
      (target a = .ddr ∧ a = addrDDR) ∨ (target a = .plain ∧ ¬ deviceAddress a) := by
  by_cases h1 : a = addrKBSR
  · exact .inl ⟨h1 ▸ target_kbsr, h1⟩
  by_cases h2 : a = addrKBDR
  · exact .inr (.inl ⟨h2 ▸ target_kbdr, h2⟩)
  by_cases h3 : a = addrDSR
  · exact .inr (.inr (.inl ⟨h3 ▸ target_dsr, h3⟩))
  by_cases h4 : a = addrDDR
  · exact .inr (.inr (.inr (.inl ⟨h4 ▸ target_ddr, h4⟩)))
  · refine .inr (.inr (.inr (.inr ⟨by simp [target, h1, h2, h3, h4], ?_⟩)))
    simp [deviceAddress, deviceAddresses, h1, h2, h3, h4]

/-- Every address but the four device addresses is plain storage. -/
theorem target_plain_iff (a : Word) : target a = .plain ↔ ¬ deviceAddress a := by
  constructor
  · intro h hd
    simp only [deviceAddress, deviceAddresses, List.mem_cons, List.not_mem_nil, or_false] at hd
    rcases hd with rfl | rfl | rfl | rfl <;> exact absurd h (by decide)
  · intro h
    rcases target_cases a with ⟨-, rfl⟩ | ⟨-, rfl⟩ | ⟨-, rfl⟩ | ⟨-, rfl⟩ | ⟨ht, -⟩
    · exact absurd (by decide) h
    · exact absurd (by decide) h
    · exact absurd (by decide) h
    · exact absurd (by decide) h
    · exact ht

/-! ### Reads (20_memory.md R42) -/

/-- A plain read gives the stored cell and changes nothing. -/
theorem memRead_plain {a : Word} (h : ¬ deviceAddress a) (s : State) : memRead a s = (s.mem.get a.toNat, s) := by
  simp [memRead, (target_plain_iff a).2 h]

/-- The run check's read is plain. -/
theorem memRead_mcr (s : State) : memRead addrMCR s = (s.mem.get addrMCR.toNat, s) :=
  memRead_plain (by decide) s

/-- Everything a read can change: at most one code leaves the front of the input queue, only through KBDR, and that code
is the word read. -/
theorem memRead_state (a : Word) (s : State) :
    (memRead a s).2 = s ∨
      (a = addrKBDR ∧ ∃ code rest, s.inq = code :: rest ∧ memRead a s = (code, s.setInq rest)) := by
  rcases target_cases a with ⟨ht, -⟩ | ⟨ht, ha⟩ | ⟨ht, -⟩ | ⟨ht, -⟩ | ⟨ht, -⟩
  · simp [memRead, ht]
  · rcases hq : s.inq with _ | ⟨code, rest⟩
    · simp [memRead, ht, State.hasPending, hq]
    · exact .inr ⟨ha, code, rest, rfl, by simp [memRead, ht, State.hasPending, State.takePending, hq]⟩
  · simp [memRead, ht]
  · simp [memRead, ht]
  · simp [memRead, ht]

/-- The frame of a read: only the input queue may differ. -/
theorem memRead_frame (a : Word) (s : State) : (memRead a s).2 = s.setInq (memRead a s).2.inq := by
  rcases memRead_state a s with h | ⟨-, code, rest, -, h⟩ <;> rw [h] <;> rfl

/-- A read leaves a tail of the input queue. -/
theorem memRead_inq_suffix (a : Word) (s : State) : (memRead a s).2.inq <:+ s.inq := by
  rcases memRead_state a s with h | ⟨-, code, rest, hq, h⟩
  · rw [h]
  · rw [h, hq]
    exact List.suffix_cons code rest

section
variable (a : Word) (s : State)

@[simp] theorem memRead_regs : (memRead a s).2.regs = s.regs := by rw [memRead_frame]; rfl
@[simp] theorem memRead_reg (r : Reg) : (memRead a s).2.reg r = s.reg r := by rw [memRead_frame]; rfl
@[simp] theorem memRead_pc : (memRead a s).2.pc = s.pc := by rw [memRead_frame]; rfl
@[simp] theorem memRead_cc : (memRead a s).2.cc = s.cc := by rw [memRead_frame]; rfl
@[simp] theorem memRead_mem : (memRead a s).2.mem = s.mem := by rw [memRead_frame]; rfl
@[simp] theorem memRead_retry : (memRead a s).2.retry = s.retry := by rw [memRead_frame]; rfl
@[simp] theorem memRead_out : (memRead a s).2.out = s.out := by rw [memRead_frame]; rfl
@[simp] theorem memRead_seq : (memRead a s).2.seq = s.seq := by rw [memRead_frame]; rfl
@[simp] theorem memRead_usable : (memRead a s).2.usable = s.usable := by rw [memRead_frame]; rfl

end

/-! ### Writes (20_memory.md R43) -/

/-- Everything a write can do: output at DDR, the fault at KBSR, KBDR and DSR, or one plain cell stored. -/
theorem memWrite_cases (a v : Word) (s : State) :
    (readOnlyAddress a ∧ memWrite a v s = .error (.readOnlyDeviceWrite a)) ∨
      (a = addrDDR ∧ memWrite a v s = .ok (s.putOut v)) ∨
      (¬ deviceAddress a ∧ memWrite a v s = .ok (s.setMem (s.mem.put a.toNat v))) := by
  rcases target_cases a with ⟨ht, ha⟩ | ⟨ht, ha⟩ | ⟨ht, ha⟩ | ⟨ht, ha⟩ | ⟨ht, ha⟩
  · exact .inl ⟨.inl ha, by simp [memWrite, ht]⟩
  · exact .inl ⟨.inr (.inl ha), by simp [memWrite, ht]⟩
  · exact .inl ⟨.inr (.inr ha), by simp [memWrite, ht]⟩
  · exact .inr (.inl ⟨ha, by simp [memWrite, ht]⟩)
  · exact .inr (.inr ⟨ha, by simp [memWrite, ht]⟩)

/-- Everything a storing instruction's write can end in (40_execution_cycle.md R105, R108). -/
theorem storeAt_cases (a v : Word) (s : State) :
    (readOnlyAddress a ∧ storeAt a v s = .fatal (.readOnlyDeviceWrite a) s) ∨
      (a = addrDDR ∧ storeAt a v s = .success (s.putOut v)) ∨
      (¬ deviceAddress a ∧ storeAt a v s = .success (s.setMem (s.mem.put a.toNat v))) := by
  rcases memWrite_cases a v s with ⟨h, hw⟩ | ⟨h, hw⟩ | ⟨h, hw⟩
  · exact .inl ⟨h, by simp [storeAt, hw]⟩
  · exact .inr (.inl ⟨h, by simp [storeAt, hw]⟩)
  · exact .inr (.inr ⟨h, by simp [storeAt, hw]⟩)

/-- A read-only address is a device address other than DDR. -/
theorem readOnlyAddress_ne_ddr {a : Word} (h : readOnlyAddress a) : a ≠ addrDDR := by
  rcases h with rfl | rfl | rfl <;> decide

/-! ### Outcomes (40_execution_cycle.md R105 to R108) -/

@[simp] theorem settle_success (s : State) : settle (.success s) = .next s := rfl
@[simp] theorem settle_retry (s : State) : settle (.retryAfterInterrupt s) = .next s.enterAwaitingInput := rfl
@[simp] theorem settle_fatal (reason : Fault) (s : State) : settle (.fatal reason s) = .next (s.enterFault reason) := rfl

/-- Everything a load does: one read, the register and the condition code. -/
theorem loadFrom_eq (dr : Reg) (a : Word) (s : State) :
    loadFrom dr a s = .success ((memRead a s).2.writeResult dr (memRead a s).1) := rfl

/-- Everything the x20 path of TRAP does (44_trap_and_unimplemented.md R161). -/
theorem getc_cases (s : State) :
    (s.inq = [] ∧ getc s = .retryAfterInterrupt s) ∨
      ∃ code rest, s.inq = code :: rest ∧ getc s = .success ((s.setInq rest).setReg 0 code) := by
  rcases hq : s.inq with _ | ⟨code, rest⟩
  · exact .inl ⟨rfl, by simp [getc, State.hasPending, hq]⟩
  · exact .inr ⟨code, rest, rfl, by simp [getc, State.hasPending, State.takePending, hq]⟩

/-- A vector cell is never a device address. -/
theorem eaVector_plain (vector : BitVec 8) : ¬ deviceAddress (eaVector vector) := by
  intro h
  have hlt : (eaVector vector).toNat < 256 := by
    have := vector.isLt
    simp [eaVector, zext8]
    omega
  simp only [deviceAddress, deviceAddresses, List.mem_cons, List.not_mem_nil, or_false] at h
  rcases h with h | h | h | h <;> rw [h] at hlt <;> exact absurd hlt (by decide)

/-- Everything trap entry does: the link, then `pc` from the vector cell (60_exceptions.md R176). -/
theorem trapEntry_eq (vector : BitVec 8) (s : State) :
    s.trapEntry (eaVector vector) = s.link.setPc (s.mem.get (eaVector vector).toNat) := by
  simp [State.trapEntry, memRead_plain (eaVector_plain vector)]

/-! ### The condition code (10_state.md R24, R25) -/

/-- `setcc` leaves one of the three one-hot values. -/
theorem ccOf_cases (v : Word) :
    (v = 0 ∧ ccOf v = ccZ) ∨ (v ≠ 0 ∧ v.getLsbD 15 = true ∧ ccOf v = ccN) ∨
      (v ≠ 0 ∧ v.getLsbD 15 = false ∧ ccOf v = ccP) := by
  by_cases h : v = 0
  · exact .inl ⟨h, by simp [ccOf, h]⟩
  · cases hn : v.getLsbD 15
    · exact .inr (.inr ⟨h, rfl, by simp only [ccOf, h, if_false, hn, Bool.false_eq_true]⟩)
    · exact .inr (.inl ⟨h, rfl, by simp only [ccOf, h, if_false, hn, if_true]⟩)

/-! ### The step (40_execution_cycle.md R101 to R103) -/

/-- The fetch, with the increment. -/
theorem fetch_eq (s : State) : fetch s = ((memRead s.pc s).1, (memRead s.pc s).2.setPc (s.pc + 1)) := by
  simp [fetch]

/-- Everything a CPU step can be. -/
theorem step_cases (s : State) :
    (s.usable = false ∧ step s = .refused .unusableUntilReset) ∨
    (s.usable = true ∧ s.seq = .running ∧ s.runSet = false ∧ step s = .next (s.setSeq .halted)) ∨
    (s.ready ∧ step s = exec (decode (fetch s).1) (fetch s).2) ∨
    (s.usable = true ∧ (s.seq = .awaitingInput ∨ s.seq = .halted) ∧ step s = .next s) ∨
    (s.usable = true ∧ ∃ reason, s.seq = .faulted reason ∧ step s = .fault reason) := by
  cases hu : s.usable
  · exact .inl ⟨rfl, by simp [step, cpuStep, hu]⟩
  · cases hq : s.seq with
    | running =>
      cases hr : s.runSet
      · refine .inr (.inl ⟨rfl, rfl, rfl, ?_⟩)
        simp only [State.runSet] at hr
        simp [step, cpuStep, hu, hq, runningStep, memRead_mcr, hr]
      · refine .inr (.inr (.inl ⟨⟨hu, hq, hr⟩, ?_⟩))
        simp only [State.runSet] at hr
        simp [step, cpuStep, hu, hq, runningStep, memRead_mcr, hr, fetchAndExecute]
    | awaitingInput => exact .inr (.inr (.inr (.inl ⟨rfl, .inl rfl, by simp [step, cpuStep, hu, hq]⟩)))
    | halted => exact .inr (.inr (.inr (.inl ⟨rfl, .inr rfl, by simp [step, cpuStep, hu, hq]⟩)))
    | faulted reason => exact .inr (.inr (.inr (.inr ⟨rfl, reason, rfl, by simp [step, cpuStep, hu, hq]⟩)))

end Sys2Proof.Machine
end

