-- ==== Sys2Proof/Laws/Memory.lean ====
section
/-! SUPPORT. The laws of the stored cells: a read after a write, the canonical form kept by every write, that
memories in canonical form which read alike are equal, and that free memories are of that form. -/

namespace Sys2Proof.Machine

@[simp] theorem Memory.get_nil (a : Nat) : Memory.get [] a = Memory.unlisted a := rfl

theorem Memory.get_cons (b : Nat) (u : Word) (rest : Memory) (a : Nat) :
    Memory.get ((b, u) :: rest) a = if a = b then u else Memory.get rest a := rfl

theorem Memory.wfFrom_cons {lo a : Nat} {v : Word} {rest : Memory} :
    Memory.wfFrom lo ((a, v) :: rest) = true ↔
      lo ≤ a ∧ a < 65536 ∧ v ≠ Memory.unlisted a ∧ Memory.wfFrom (a + 1) rest = true := by
  simp [Memory.wfFrom, and_assoc]

theorem Memory.wfFrom_mono {lo lo' : Nat} (h : lo' ≤ lo) {m : Memory} (hm : Memory.wfFrom lo m = true) :
    Memory.wfFrom lo' m = true := by
  cases m with
  | nil => rfl
  | cons c rest =>
    rw [Memory.wfFrom_cons] at hm ⊢
    exact ⟨h.trans hm.1, hm.2⟩

/-- Below the canonical form's first address nothing is listed. -/
theorem Memory.get_below {lo : Nat} {m : Memory} (hm : Memory.wfFrom lo m = true) {a : Nat} (ha : a < lo) :
    m.get a = Memory.unlisted a := by
  induction m generalizing lo with
  | nil => rfl
  | cons c rest ih =>
    obtain ⟨b, u⟩ := c
    obtain ⟨hb, -, -, hr⟩ := Memory.wfFrom_cons.1 hm
    rw [Memory.get_cons, if_neg (by omega)]
    exact ih hr (by omega)

theorem Memory.get_consCell_same (a : Nat) (v : Word) {rest : Memory} (hr : Memory.wfFrom (a + 1) rest = true) :
    (Memory.consCell a v rest).get a = v := by
  unfold Memory.consCell
  split
  · next h => rw [Memory.get_below hr (by omega), h]
  · rw [Memory.get_cons, if_pos rfl]

theorem Memory.get_consCell_other {a b : Nat} (h : b ≠ a) (v : Word) (rest : Memory) :
    (Memory.consCell a v rest).get b = rest.get b := by
  unfold Memory.consCell
  split
  · rfl
  · rw [Memory.get_cons, if_neg h]

theorem Memory.wfFrom_consCell {lo a : Nat} (hlo : lo ≤ a) (ha : a < 65536) (v : Word) {rest : Memory}
    (hr : Memory.wfFrom (a + 1) rest = true) : Memory.wfFrom lo (Memory.consCell a v rest) = true := by
  unfold Memory.consCell
  split
  · exact Memory.wfFrom_mono (by omega) hr
  · next h => exact Memory.wfFrom_cons.2 ⟨hlo, ha, h, hr⟩

/-- A write leaves every other cell as it was. -/
theorem Memory.get_put_other (m : Memory) {a b : Nat} (h : b ≠ a) (v : Word) : (m.put a v).get b = m.get b := by
  induction m with
  | nil => exact Memory.get_consCell_other h v []
  | cons c rest ih =>
    obtain ⟨d, u⟩ := c
    simp only [Memory.put]
    split
    · exact Memory.get_consCell_other h v _
    · split
      · next hd => rw [Memory.get_consCell_other h, Memory.get_cons, if_neg (hd ▸ h)]
      · rw [Memory.get_cons, Memory.get_cons, ih]

theorem Memory.get_put_same_from {lo : Nat} {m : Memory} (hm : Memory.wfFrom lo m = true) (a : Nat) (v : Word) :
    (m.put a v).get a = v := by
  induction m generalizing lo with
  | nil => exact Memory.get_consCell_same a v rfl
  | cons c rest ih =>
    obtain ⟨d, u⟩ := c
    obtain ⟨-, hd, hu, hr⟩ := Memory.wfFrom_cons.1 hm
    simp only [Memory.put]
    split
    · next h => exact Memory.get_consCell_same a v (Memory.wfFrom_cons.2 ⟨h, hd, hu, hr⟩)
    · split
      · next h => exact Memory.get_consCell_same a v (h ▸ hr)
      · next h => rw [Memory.get_cons, if_neg h, ih hr]

/-- A read after a write of the same cell gives the word written. -/
theorem Memory.get_put_same {m : Memory} (hm : m.wf = true) (a : Nat) (v : Word) : (m.put a v).get a = v :=
  Memory.get_put_same_from hm a v

theorem Memory.wfFrom_put {lo : Nat} {m : Memory} (hm : Memory.wfFrom lo m = true) {a : Nat} (hlo : lo ≤ a)
    (ha : a < 65536) (v : Word) : Memory.wfFrom lo (m.put a v) = true := by
  induction m generalizing lo with
  | nil => exact Memory.wfFrom_consCell hlo ha v rfl
  | cons c rest ih =>
    obtain ⟨d, u⟩ := c
    obtain ⟨hd, hd', hu, hr⟩ := Memory.wfFrom_cons.1 hm
    simp only [Memory.put]
    split
    · next h => exact Memory.wfFrom_consCell hlo ha v (Memory.wfFrom_cons.2 ⟨h, hd', hu, hr⟩)
    · split
      · next h => exact Memory.wfFrom_consCell hlo ha v (h ▸ hr)
      · exact Memory.wfFrom_cons.2 ⟨hd, hd', hu, ih hr (by omega)⟩

/-- Every write keeps the canonical form. -/
theorem Memory.wf_put {m : Memory} (hm : m.wf = true) {a : Nat} (ha : a < 65536) (v : Word) :
    (m.put a v).wf = true :=
  Memory.wfFrom_put hm (Nat.zero_le a) ha v

/-- A store's address is inside the address space. -/
theorem Memory.wf_put_word {m : Memory} (hm : m.wf = true) (a : Word) (v : Word) : (m.put a.toNat v).wf = true :=
  Memory.wf_put hm a.isLt v

/-- The loader's copy keeps the canonical form inside the address space. -/
theorem Memory.wf_loadWords (payload : List Byte) {a : Nat} {m : Memory} (hm : m.wf = true)
    (ha : a + payload.length / 2 ≤ 65536) : (loadWords a payload m).wf = true := by
  match payload with
  | [] => exact hm
  | [_] => exact hm
  | hi :: lo :: rest =>
    simp only [List.length_cons] at ha
    exact Memory.wf_loadWords rest (Memory.wf_put hm (by omega) _) (by omega)

/-- Memories in canonical form that read alike are equal data. -/
theorem Memory.ext_from {lo : Nat} {m m' : Memory} (hm : Memory.wfFrom lo m = true)
    (hm' : Memory.wfFrom lo m' = true) (h : ∀ a, lo ≤ a → m.get a = m'.get a) : m = m' := by
  induction m generalizing lo m' with
  | nil =>
    cases m' with
    | nil => rfl
    | cons c rest =>
      obtain ⟨b, u⟩ := c
      obtain ⟨hb, -, hu, -⟩ := Memory.wfFrom_cons.1 hm'
      exact absurd (by simpa [Memory.get_cons] using (h b hb).symm) hu
  | cons c rest ih =>
    obtain ⟨b, u⟩ := c
    obtain ⟨hb, hb', hu, hr⟩ := Memory.wfFrom_cons.1 hm
    cases m' with
    | nil => exact absurd (by simpa [Memory.get_cons] using h b hb) hu
    | cons c' rest' =>
      obtain ⟨b', u'⟩ := c'
      obtain ⟨hc, hc', hu', hr'⟩ := Memory.wfFrom_cons.1 hm'
      obtain rfl : b = b' := by
        rcases Nat.lt_trichotomy b b' with hlt | heq | hgt
        · have := h b hb
          rw [Memory.get_cons, if_pos rfl, Memory.get_cons, if_neg (by omega),
            Memory.get_below hr' (by omega)] at this
          exact absurd this hu
        · exact heq
        · have := h b' hc
          rw [Memory.get_cons, if_neg (by omega), Memory.get_below hr (by omega), Memory.get_cons,
            if_pos rfl] at this
          exact absurd this.symm hu'
      have huu : u = u' := by simpa [Memory.get_cons] using h b hb
      refine huu ▸ congrArg _ (ih hr hr' fun a ha => ?_)
      have := h a (by omega)
      rwa [Memory.get_cons, Memory.get_cons, if_neg (by omega), if_neg (by omega)] at this

/-- Two memories in canonical form with the same reads are the same list. -/
theorem Memory.ext {m m' : Memory} (hm : m.wf = true) (hm' : m'.wf = true) (h : ∀ a, m.get a = m'.get a) : m = m' :=
  Memory.ext_from hm hm' fun a _ => h a

/-! ### No cell behind a device address -/

theorem Memory.noDeviceCell_consCell {m : Memory} (hm : m.noDeviceCell = true) {a : Nat}
    (ha : ∀ d ∈ deviceAddresses, d.toNat ≠ a) (v : Word) : (Memory.consCell a v m).noDeviceCell = true := by
  unfold Memory.consCell
  split
  · exact hm
  · unfold Memory.noDeviceCell at hm ⊢
    rw [List.all_cons, hm, Bool.and_true]
    simpa using ha

/-- A write outside the device addresses lists no cell behind one. -/
theorem Memory.noDeviceCell_put {m : Memory} (hm : m.noDeviceCell = true) {a : Nat}
    (ha : ∀ d ∈ deviceAddresses, d.toNat ≠ a) (v : Word) : (m.put a v).noDeviceCell = true := by
  induction m with
  | nil => exact Memory.noDeviceCell_consCell hm ha v
  | cons c rest ih =>
    obtain ⟨b, u⟩ := c
    have hrest : Memory.noDeviceCell rest = true := by
      unfold Memory.noDeviceCell at hm ⊢
      rw [List.all_cons, Bool.and_eq_true] at hm
      exact hm.2
    simp only [Memory.put]
    split
    · exact Memory.noDeviceCell_consCell hm ha v
    · split
      · exact Memory.noDeviceCell_consCell hrest ha v
      · have := ih hrest
        unfold Memory.noDeviceCell at hm this ⊢
        rw [List.all_cons, Bool.and_eq_true] at hm ⊢
        exact ⟨hm.1, this⟩

/-! ### Free memories -/

/-- A free memory is in canonical form. -/
theorem Memory.wf_ofCells (cells : List (Nat × Word)) : (Memory.ofCells cells).wf = true := by
  induction cells with
  | nil => rfl
  | cons cell rest ih =>
    obtain ⟨a, v⟩ := cell
    simp only [Memory.ofCells]
    split
    · next h => exact Memory.wf_put ih h.1 v
    · exact ih

/-- A free memory lists no cell behind a device address. -/
theorem Memory.noDeviceCell_ofCells (cells : List (Nat × Word)) : (Memory.ofCells cells).noDeviceCell = true := by
  induction cells with
  | nil => rfl
  | cons cell rest ih =>
    obtain ⟨a, v⟩ := cell
    simp only [Memory.ofCells]
    split
    · next h =>
      refine Memory.noDeviceCell_put ih (fun d hd he => (target_plain_iff _).1 h.2 ?_) v
      subst he
      simpa using hd
    · exact ih

/-- What free contents keep of the invariant: the canonical form, no device cell, and a one-hot condition code. -/
theorem State.freeContents_inv (s : State) :
    s.freeContents.mem.wf = true ∧ s.freeContents.mem.noDeviceCell = true ∧ s.freeContents.ccOneHot := by
  refine ⟨Memory.wf_ofCells _, Memory.noDeviceCell_ofCells _, ?_⟩
  show ccOf _ = _ ∨ ccOf _ = _ ∨ ccOf _ = _
  rcases ccOf_cases (Config.freeCc s.draws) with ⟨-, h⟩ | ⟨-, -, h⟩ | ⟨-, -, h⟩ <;> rw [h] <;> decide

/-- Any memory at all keeps the invariant. -/
theorem State.freeMemory_inv {s : State} (h : s.Inv) : s.freeMemory.Inv :=
  ⟨Memory.wf_ofCells _, Memory.noDeviceCell_ofCells _, h.2.2⟩

/-- Entering a fault with a legal reason gives the invariant, whatever the registers and memory were. -/
theorem State.enterFault_inv {s : State} (h : s.retry = false) {reason : Fault} (hr : reason.legal = true) :
    (s.enterFault reason).Inv :=
  ⟨s.freeContents_inv.1, s.freeContents_inv.2.1, s.freeContents_inv.2.2, by simp [h], hr⟩

/-! ### The loader (70_reset_and_hazards.md R206 to R209) -/

/-- Everything a load can do to the state: nothing on an unusable machine; free memory and the unusable mark where it does
not succeed; new cells and nothing else where it does. -/
theorem load_cases (limit : Nat) (bytes : List Byte) (s : State) :
    (s.usable = false ∧ load limit bytes s = (.refused, s)) ∨
      (s.usable = true ∧ ∃ r, r ≠ .success ∧ load limit bytes s = (r, s.freeMemory.setUsable false)) ∨
      (s.usable = true ∧ ∃ m, load limit bytes s = (.success, s.setMem m)) := by
  cases hu : s.usable
  · exact .inl ⟨rfl, by simp [load, hu]⟩
  · simp only [load, hu, if_true]
    split
    · split
      · exact .inr (.inl ⟨trivial, .refused, by decide, rfl⟩)
      · split
        · exact .inr (.inl ⟨trivial, .inputTooLarge, by decide, rfl⟩)
        · split
          · exact .inr (.inl ⟨trivial, .refused, by decide, rfl⟩)
          · exact .inr (.inr ⟨trivial, _, rfl⟩)
    · exact .inr (.inl ⟨trivial, .refused, by decide, rfl⟩)

end Sys2Proof.Machine
end

