-- ==== Sys2Proof/Laws/PerInstr.lean ====
section
/-! SUPPORT. The per-instruction family `EncodedRow`: the word of an instruction belongs to the row of
spec/opcode_table.json that bears its mnemonic. -/

namespace Sys2Proof.Laws.EncodedRow

/-- The encoded word belongs to the instruction's row. -/
def Statement (i : Instr) : Prop := ∃ row ∈ opcodeRows, row.mnemonic = i.mnemonic ∧ row.matches (encode i) = true

/-- A word belongs to a row when its bits do, one by one. -/
theorem matches_of_bits {row : OpcodeRow} {w : Word}
    (h : ∀ k, k < 16 → (w.getLsbD k && row.mask.getLsbD k) = row.pattern.getLsbD k) : row.matches w = true := by
  have : w &&& row.mask = row.pattern := by
    apply BitVec.eq_of_getLsbD_eq
    intro k hk
    rw [BitVec.getLsbD_and]
    exact h k hk
  simp [OpcodeRow.matches, this]

theorem br (nzp : BitVec 3) (offset9 : BitVec 9) : Statement (.br nzp offset9) := by
  refine ⟨⟨"BR", 0x0000, 0xF000⟩, by decide, rfl, matches_of_bits fun k hk => ?_⟩
  interval_cases k <;> simp only [encode, BitVec.getLsbD_append] <;> simp

theorem add (dr sr1 sr2 : Reg) : Statement (.add dr sr1 sr2) := by
  refine ⟨⟨"ADD", 0x1000, 0xF020⟩, by decide, rfl, matches_of_bits fun k hk => ?_⟩
  interval_cases k <;> simp only [encode, BitVec.getLsbD_append] <;> simp

theorem addi (dr sr1 : Reg) (imm5 : BitVec 5) : Statement (.addi dr sr1 imm5) := by
  refine ⟨⟨"ADDI", 0x1020, 0xF020⟩, by decide, rfl, matches_of_bits fun k hk => ?_⟩
  interval_cases k <;> simp only [encode, BitVec.getLsbD_append] <;> simp

theorem ld (dr : Reg) (offset9 : BitVec 9) : Statement (.ld dr offset9) := by
  refine ⟨⟨"LD", 0x2000, 0xF000⟩, by decide, rfl, matches_of_bits fun k hk => ?_⟩
  interval_cases k <;> simp only [encode, BitVec.getLsbD_append] <;> simp

theorem st (sr : Reg) (offset9 : BitVec 9) : Statement (.st sr offset9) := by
  refine ⟨⟨"ST", 0x3000, 0xF000⟩, by decide, rfl, matches_of_bits fun k hk => ?_⟩
  interval_cases k <;> simp only [encode, BitVec.getLsbD_append] <;> simp

theorem jsr (offset11 : BitVec 11) : Statement (.jsr offset11) := by
  refine ⟨⟨"JSR", 0x4800, 0xF800⟩, by decide, rfl, matches_of_bits fun k hk => ?_⟩
  interval_cases k <;> simp only [encode, BitVec.getLsbD_append] <;> simp

theorem jsrr (baseR : Reg) : Statement (.jsrr baseR) := by
  refine ⟨⟨"JSRR", 0x4000, 0xF800⟩, by decide, rfl, matches_of_bits fun k hk => ?_⟩
  interval_cases k <;> simp only [encode, BitVec.getLsbD_append] <;> simp

theorem and (dr sr1 sr2 : Reg) : Statement (.and dr sr1 sr2) := by
  refine ⟨⟨"AND", 0x5000, 0xF020⟩, by decide, rfl, matches_of_bits fun k hk => ?_⟩
  interval_cases k <;> simp only [encode, BitVec.getLsbD_append] <;> simp

theorem andi (dr sr1 : Reg) (imm5 : BitVec 5) : Statement (.andi dr sr1 imm5) := by
  refine ⟨⟨"ANDI", 0x5020, 0xF020⟩, by decide, rfl, matches_of_bits fun k hk => ?_⟩
  interval_cases k <;> simp only [encode, BitVec.getLsbD_append] <;> simp

theorem ldr (dr baseR : Reg) (offset6 : BitVec 6) : Statement (.ldr dr baseR offset6) := by
  refine ⟨⟨"LDR", 0x6000, 0xF000⟩, by decide, rfl, matches_of_bits fun k hk => ?_⟩
  interval_cases k <;> simp only [encode, BitVec.getLsbD_append] <;> simp

theorem str (sr baseR : Reg) (offset6 : BitVec 6) : Statement (.str sr baseR offset6) := by
  refine ⟨⟨"STR", 0x7000, 0xF000⟩, by decide, rfl, matches_of_bits fun k hk => ?_⟩
  interval_cases k <;> simp only [encode, BitVec.getLsbD_append] <;> simp

theorem rti (low12 : BitVec 12) : Statement (.rti low12) := by
  refine ⟨⟨"RTI", 0x8000, 0xF000⟩, by decide, rfl, matches_of_bits fun k hk => ?_⟩
  interval_cases k <;> simp only [encode, BitVec.getLsbD_append] <;> simp

theorem not (dr sr : Reg) : Statement (.not dr sr) := by
  refine ⟨⟨"NOT", 0x9000, 0xF000⟩, by decide, rfl, matches_of_bits fun k hk => ?_⟩
  interval_cases k <;> simp only [encode, BitVec.getLsbD_append] <;> simp

theorem ldi (dr : Reg) (offset9 : BitVec 9) : Statement (.ldi dr offset9) := by
  refine ⟨⟨"LDI", 0xA000, 0xF000⟩, by decide, rfl, matches_of_bits fun k hk => ?_⟩
  interval_cases k <;> simp only [encode, BitVec.getLsbD_append] <;> simp

theorem sti (sr : Reg) (offset9 : BitVec 9) : Statement (.sti sr offset9) := by
  refine ⟨⟨"STI", 0xB000, 0xF000⟩, by decide, rfl, matches_of_bits fun k hk => ?_⟩
  interval_cases k <;> simp only [encode, BitVec.getLsbD_append] <;> simp

theorem jmp (baseR : Reg) : Statement (.jmp baseR) := by
  refine ⟨⟨"JMP", 0xC000, 0xF000⟩, by decide, rfl, matches_of_bits fun k hk => ?_⟩
  interval_cases k <;> simp only [encode, BitVec.getLsbD_append] <;> simp

theorem reserved (low12 : BitVec 12) : Statement (.reserved low12) := by
  refine ⟨⟨"RESERVED", 0xD000, 0xF000⟩, by decide, rfl, matches_of_bits fun k hk => ?_⟩
  interval_cases k <;> simp only [encode, BitVec.getLsbD_append] <;> simp

theorem lea (dr : Reg) (offset9 : BitVec 9) : Statement (.lea dr offset9) := by
  refine ⟨⟨"LEA", 0xE000, 0xF000⟩, by decide, rfl, matches_of_bits fun k hk => ?_⟩
  interval_cases k <;> simp only [encode, BitVec.getLsbD_append] <;> simp

theorem trap (trapvect8 : BitVec 8) : Statement (.trap trapvect8) := by
  refine ⟨⟨"TRAP", 0xF000, 0xF000⟩, by decide, rfl, matches_of_bits fun k hk => ?_⟩
  interval_cases k <;> simp only [encode, BitVec.getLsbD_append] <;> simp

theorem trapGetc : Statement .trapGetc := by
  refine ⟨⟨"TRAP_GETC", 0xF020, 0xF0FF⟩, by decide, rfl, matches_of_bits fun k hk => ?_⟩
  interval_cases k <;> simp only [encode, BitVec.getLsbD_append] <;> simp [getcVector]

end Sys2Proof.Laws.EncodedRow
end

