-- ==== Sys2Proof/Tests/Slice0.lean ====
section
/-! SUPPORT. Tests of single steps, with expected results from the spec's worked examples E1 to E8, its vectors V1 to V67
and the examples of its instruction rules (95_test_vectors.md, files 41 to 44); and for each statement with hypotheses a
witness that meets them (`witness_<statement>`). -/

namespace Sys2Proof.Tests

open Sys2Proof Sys2Proof.Machine

/-! ### Helpers -/

/-- The next state, where there is one. -/
def after : Host.Outcome State Fault Refusal → Option State
  | .next s => some s
  | .fault _ => none
  | .refused _ => none

/-- The reset state with the word placed at 0x3000. -/
def placed (w : Word) : State := State.reset.withFetchWord 16 w.toNat

/-- The reset state with the word placed at `pc`. -/
def placedAt (pc w : Word) : State := (State.reset.setPc pc).withFetchWord 16 w.toNat

/-- `s` with the stored cell `a` holding `v`. -/
def withCell (a v : Word) (s : State) : State := s.setMem (s.mem.put a.toNat v)

/-- What a step's next state shows. -/
def see {α : Type} (s : State) (f : State → α) : Option α := (after (step s)).map f

/-! ### Well-formed terms -/

theorem test_wf_refuses_trap_20 : (Instr.trap 0x20).wf = false := by decide
theorem test_wf_trap_neighbours : (Instr.trap 0x1F).wf = true ∧ (Instr.trap 0x21).wf = true := by decide

/-! ### Decoding: one word per constructor, written from the formats of 30_encoding.md R74 to R83 -/

theorem test_decode_br : decode 0b0000_010_000000010 = .br 0b010 2 := by decide
theorem test_decode_add : decode 0b0001_010_000_0_00_001 = .add 2 0 1 := by decide
theorem test_decode_addi : decode 0b0001_001_001_1_10000 = .addi 1 1 0b10000 := by decide
theorem test_decode_ld : decode 0b0010_001_111111111 = .ld 1 0x1FF := by decide
theorem test_decode_st : decode 0b0011_011_000000001 = .st 3 1 := by decide
theorem test_decode_jsr : decode 0b0100_1_10000000000 = .jsr 0x400 := by decide
theorem test_decode_jsrr : decode 0b0100_0_00_010_000000 = .jsrr 2 := by decide
theorem test_decode_and : decode 0b0101_000_001_0_00_010 = .and 0 1 2 := by decide
theorem test_decode_andi : decode 0b0101_001_010_1_10000 = .andi 1 2 0b10000 := by decide
theorem test_decode_ldr : decode 0b0110_001_010_011111 = .ldr 1 2 31 := by decide
theorem test_decode_str : decode 0b0111_001_000_000001 = .str 1 0 1 := by decide
theorem test_decode_rti : decode 0b1000_000000000000 = .rti 0 := by decide
theorem test_decode_not : decode 0b1001_001_010_111111 = .not 1 2 := by decide
theorem test_decode_ldi : decode 0b1010_001_000000100 = .ldi 1 4 := by decide
theorem test_decode_sti : decode 0b1011_000_000000100 = .sti 0 4 := by decide
theorem test_decode_jmp : decode 0b1100_000_111_000000 = .jmp 7 := by decide
theorem test_decode_reserved : decode 0b1101_111111111111 = .reserved 0xFFF := by decide
theorem test_decode_lea : decode 0b1110_101_100000000 = .lea 5 0x100 := by decide
theorem test_decode_trap : decode 0b1111_0000_00100101 = .trap 0x25 := by decide
theorem test_decode_trapGetc : decode 0b1111_0001_00100000 = .trapGetc := by decide
/-- The words of the listings of P1 and P2. -/
theorem test_encode_listing :
    encode (.andi 0 0 0) = 0x5020 ∧ encode (.addi 2 2 0x1F) = 0x14BF ∧ encode (.br 1 0x1FD) = 0x03FD ∧
    encode (.jsr 3) = 0x4803 ∧ encode (.ldr 1 0 0) = 0x6200 ∧ encode (.jmp 7) = 0xC1C0 ∧
    encode (.not 1 2) = 0x92BF ∧ encode .trapGetc = 0xF020 := by decide

/-! ### Extensions and the condition code -/

/-- E1. -/
theorem test_sext_boundaries :
    sext5 0x10 = 0xFFF0 ∧ sext5 0x0F = 0x000F ∧ sext6 0x20 = 0xFFE0 ∧ sext6 0x1F = 0x001F ∧ sext9 0x100 = 0xFF00 ∧
    sext9 0x0FF = 0x00FF ∧ sext11 0x400 = 0xFC00 ∧ sext11 0x3FF = 0x03FF ∧ zext8 0xFF = 0x00FF := by decide
/-- E2. -/
theorem test_setcc_values :
    ccOf 0x0000 = 0x0002 ∧ ccOf 0x0001 = 0x0001 ∧ ccOf 0x7FFF = 0x0001 ∧ ccOf 0x8000 = 0x0004 ∧ ccOf 0xFFFF = 0x0004 := by
  decide

/-! ### Operate -/

/-- V4: a source that is also the destination; signed overflow wraps. -/
theorem test_add_wraps :
    see ((placed 0x16C3).setReg 3 0x4000) (fun t => (t.reg 3, t.cc, t.pc)) = some (0x8000, 4, 0x3001) := by decide
/-- V6: bits 4:3 ignored. -/
theorem test_add_ignored_bits : see ((placed 0x1018).setReg 0 1) (fun t => (t.reg 0, t.cc)) = some (2, 1) := by decide
/-- E5. -/
theorem test_addi_wraps : see ((placed 0x1021).setReg 0 0x7FFF) (fun t => (t.reg 0, t.cc)) = some (0x8000, 4) := by
  decide
/-- V5. -/
theorem test_addi_most_negative :
    see ((placed 0x1270).setReg 1 0x0010) (fun t => (t.reg 1, t.cc)) = some (0, 2) := by decide
/-- V8. -/
theorem test_and_register :
    see (((placed 0x5042).setReg 1 0xF0F0).setReg 2 0x0FF0) (fun t => (t.reg 0, t.cc)) = some (0x00F0, 1) := by decide
/-- V11. -/
theorem test_andi_mask : see ((placed 0x52B0).setReg 2 0x1234) (fun t => (t.reg 1, t.cc)) = some (0x1230, 1) := by
  decide
/-- V14: a non-canonical word. -/
theorem test_not_noncanonical : see ((placed 0x9000).setReg 0 0x8000) (fun t => (t.reg 0, t.cc)) = some (0x7FFF, 1) := by
  decide
/-- V13. -/
theorem test_not_zero : see ((placed 0x92BF).setReg 2 0xFFFF) (fun t => (t.reg 1, t.cc)) = some (0, 2) := by decide

/-! ### Control -/

/-- V18: the fetch wraps and then the offset is added. -/
theorem test_br_wraps : see ((placedAt 0xFFFF 0x0201).setCc 1) (fun t => t.pc) = some 0x0001 := by decide
/-- V17a: not taken. -/
theorem test_br_not_taken : see ((placed 0x0805).setCc 1) (fun t => (t.pc, t.cc)) = some (0x3001, 1) := by decide
/-- V20. -/
theorem test_jmp : see ((placed 0xC080).setReg 2 0x1234) (fun t => t.pc) = some 0x1234 := by decide
/-- V22. -/
theorem test_jsr_most_negative : see (placed 0x4C00) (fun t => (t.reg 7, t.pc)) = some (0x3001, 0x2C01) := by decide
/-- V23. -/
theorem test_jsr_most_positive : see (placed 0x4BFF) (fun t => (t.reg 7, t.pc)) = some (0x3001, 0x3400) := by decide
/-- V24. -/
theorem test_jsrr : see ((placed 0x4080).setReg 2 0x4000) (fun t => (t.reg 7, t.pc)) = some (0x3001, 0x4000) := by decide
/-- V25: the link is written first. -/
theorem test_jsrr_r7 : see ((placed 0x41C0).setReg 7 0x5000) (fun t => (t.reg 7, t.pc)) = some (0x3001, 0x3001) := by
  decide

/-! ### Loads, stores and LEA -/

/-- V26: LD of its own word. -/
theorem test_ld_own_word : see (placed 0x23FF) (fun t => (t.reg 1, t.cc)) = some (0x23FF, 1) := by decide
/-- The example of R141. -/
theorem test_ld_negative :
    see (withCell 0x3005 0x8001 (placedAt 0x3001 0x2203)) (fun t => (t.reg 1, t.cc)) = some (0x8001, 4) := by decide
/-- V29. -/
theorem test_ldi : see (withCell 0x4000 0x8000 (withCell 0x3001 0x4000 (placed 0xA400))) (fun t => (t.reg 2, t.cc)) =
    some (0x8000, 4) := by decide
/-- V30: DSR is always ready. -/
theorem test_ldi_dsr : see (withCell 0x3001 0xFE04 (placed 0xA000)) (fun t => t.reg 0) = some 0x8000 := by decide
/-- V27: a KBDR read consumes. -/
theorem test_ldr_kbdr :
    see (((placed 0x6042).setReg 1 0xFE00).setInq [0x0061]) (fun t => (t.reg 0, t.cc, t.inq)) = some (0x61, 1, []) := by
  decide
/-- V32: the address wraps. -/
theorem test_ldr_wraps :
    see (withCell 0x001E 0x1234 ((placed 0x629F).setReg 2 0xFFFF)) (fun t => (t.reg 1, t.cc)) = some (0x1234, 1) := by
  decide
/-- V33: LEA sets the condition code. -/
theorem test_lea_zero : see (placedAt 0xFFFF 0xE000) (fun t => (t.reg 0, t.cc, t.pc)) = some (0, 2, 0) := by decide
/-- V35. -/
theorem test_lea_negative : see (placedAt 0x8000 0xE000) (fun t => (t.reg 0, t.cc)) = some (0x8001, 4) := by decide
/-- V36. -/
theorem test_st :
    see ((placed 0x3601).setReg 3 0xABCD) (fun t => (t.mem.get 0x3002, t.cc)) = some (0xABCD, 2) := by decide
/-- V37: a store that clears RUN completes, and the next step halts. -/
theorem test_st_halts :
    see (placedAt 0xFFFC 0x3001) (fun t => (t.mem.get 0xFFFE, t.pc, t.seq, see t fun u => (u.seq, u.pc))) =
      some (0, 0xFFFD, .running, some (.halted, 0xFFFD)) := by decide
/-- V38: a DDR write is output. -/
theorem test_sti_ddr : see (withCell 0x3001 0xFE06 ((placed 0xB000).setReg 0 0x48)) (fun t => t.out) = some [0x48] := by
  decide
/-- V39: a KBSR write is fatal. -/
theorem test_sti_kbsr : see (withCell 0x3001 0xFE00 (placed 0xB000)) (fun t => t.seq) =
    some (.faulted (.readOnlyDeviceWrite 0xFE00)) := by decide
/-- V43: 0xFE01 is plain. -/
theorem test_str_plain_between_devices :
    see (((placed 0x7281).setReg 2 0xFE00).setReg 1 7) (fun t => t.mem.get 0xFE01) = some 7 := by decide
/-- V41: a DSR write is fatal. -/
theorem test_str_dsr : see ((placed 0x7280).setReg 2 0xFE04) (fun t => t.seq) =
    some (.faulted (.readOnlyDeviceWrite 0xFE04)) := by decide

/-! ### TRAP, RTI, reserved -/

/-- V46. -/
theorem test_trap : see (withCell 0x0025 0x0400 (placed 0xF025)) (fun t => (t.reg 7, t.pc)) = some (0x3001, 0x0400) := by
  decide
/-- V44: GETC writes R0 only. -/
theorem test_getc :
    see ((((placed 0xF020).setInq [0x41]).setReg 7 0x1111).setCc 1) (fun t => (t.reg 0, t.reg 7, t.cc, t.pc, t.inq)) =
      some (0x41, 0x1111, 1, 0x3001, []) := by decide
/-- V45: no input. -/
theorem test_getc_waits :
    see (placed 0xF020) (fun t => (t.pc, t.retry, t.seq)) = some (0x3000, true, .awaitingInput) := by decide
/-- V49, its outcome: nothing is claimed of the faulted machine's registers (R115). -/
theorem test_rti : see (placed 0x8000) (fun t => t.seq) = some (.faulted (.unimplementedRTI 0x8000)) := by decide
/-- V50. -/
theorem test_reserved : see (placed 0xDFFF) (fun t => t.seq) = some (.faulted (.unimplementedReserved 0xDFFF)) := by
  decide

/-! ### The sequencer and the memory unit -/

/-- V52: only bit 15 counts. -/
theorem test_run_check : see (withCell 0xFFFE 0x7FFF (placed 0x1021)) (fun t => (t.seq, t.pc)) = some (.halted, 0x3000) := by
  decide
/-- V54: a fetch from KBDR consumes. -/
theorem test_fetch_kbdr :
    see (((State.reset.setPc 0xFE02).setInq [0x1021]).setReg 0 5) (fun t => (t.inq, t.reg 0, t.cc, t.pc)) =
      some ([], 6, 1, 0xFE03) := by decide
/-- V40a: the pointer read of KBDR consumes a code. -/
theorem test_sti_kbdr_pointer :
    see (((placedAt 0xFE01 0xB000).setInq [0x4000]).setReg 0 0x5555) (fun t => (t.inq, t.mem.get 0x4000, t.pc)) =
      some ([], 0x5555, 0xFE02) := by decide
/-- E6, its last step. -/
theorem test_getc_resumes :
    see (placed 0xF020) (fun t => see (notify (enqueue 0x41 t)) fun u => (u.reg 0, u.inq, u.pc, u.seq, u.retry)) =
      some (some (0x41, [], 0x3001, .running, false)) := by decide
/-- V59 and E8. -/
theorem test_reset :
    let t := hostReset Config.gprInit ((State.reset.setSeq .awaitingInput).setRetry true)
    t.seq = .running ∧ t.retry = false ∧ t.pc = 0x3000 ∧ t.cc = 2 ∧ t.mem.get 0xFFFE = 0x8000 ∧ t.mem.get 0x3000 = 0 := by
  decide

/-! ### The loader (V60 to V67) -/

theorem test_load_success :
    let r := load Config.loaderLimit [0x30, 0x00, 0x00, 0x01] State.reset
    r.1 = .success ∧ r.2.mem.get 0x3000 = 0x0001 := by decide
theorem test_load_bounds :
    (load Config.loaderLimit [0xFF, 0xFF, 0x12, 0x34] State.reset).1 = .inputTooLarge ∧
    (load Config.loaderLimit [0xFF, 0xFE, 0x00, 0x00] State.reset).1 = .success ∧
    (load Config.loaderLimit [0x30, 0x00] State.reset).1 = .success := by decide
theorem test_load_refused :
    (load Config.loaderLimit [0x30] State.reset).1 = .refused ∧
    (load Config.loaderLimit [0x30, 0x00, 0x12] State.reset).1 = .refused ∧
    (load Config.loaderLimit [0xFD, 0xFF, 0, 0, 0, 0, 0, 0, 0, 0] State.reset).1 = .refused ∧
    (load Config.loaderLimit [0x30] State.reset).2.usable = false ∧
    (load Config.loaderLimit [0xFE, 0x01, 0xAB, 0xCD] State.reset).2.mem.get 0xFE01 = 0xABCD := by decide

/-! ### Witnesses: for each statement with hypotheses, operands and a state that meet them -/

/-- Parameters the spec allows, at their bounds. -/
def params : Config.Params := ⟨Config.gprInit, 0x10000, 1⟩

/-- A machine waiting at a TRAP x20. -/
def waiting : State := ((placed 0xF020).setRetry true).setSeq .awaitingInput

theorem witness_DecodeOfEncode : (Instr.trap 0xFF).wf = true ∧ (Instr.add 7 7 7).wf = true := by decide
theorem witness_EveryWordHasOneRow :
    OpcodeRow.mk "TRAP" 0xF000 0xF000 ∈ opcodeRows ∧ (OpcodeRow.mk "TRAP" 0xF000 0xF000).matches 0xF020 = true := by decide
theorem witness_StepRunsDecodedInstruction :
    (placed 0x1021).ready ∧ ¬ deviceAddress (placed 0x1021).pc ∧ decode ((placed 0x1021).mem.get 0x3000) = .addi 0 0 1 := by
  decide
theorem witness_RunCheckComesFirst :
    State.reset.usable = true ∧ State.reset.seq = .running ∧ (State.reset.mem.get 0xFFFE).getLsbD 15 = true ∧
    ((withCell 0xFFFE 0x7FFF State.reset).mem.get 0xFFFE).getLsbD 15 = false := by decide
theorem witness_NoStepUnlessRunning :
    waiting.usable = true ∧ waiting.seq = .awaitingInput ∧ (State.reset.setSeq .halted).seq = .halted ∧
    (State.reset.setSeq (.faulted (.unimplementedRTI 0x8000))).seq = .faulted (.unimplementedRTI 0x8000) := by decide
theorem witness_UnusableMachineRefusesUntilReset :
    (load Config.loaderLimit [0x30] State.reset).2.usable = false ∧ HostMove.notify ≠ .reset := by decide
theorem witness_GetcWithoutInputRewinds :
    (placed 0xF020).ready ∧ (decode (memRead (placed 0xF020).pc (placed 0xF020)).1).isGetc = true ∧
    (memRead (placed 0xF020).pc (placed 0xF020)).2.inq = [] ∧ ¬ deviceAddress (placed 0xF020).pc := by decide
theorem witness_GetcResumesAfterNotify :
    (placed 0xF120).ready ∧ ¬ deviceAddress (placed 0xF120).pc ∧
    (decode ((placed 0xF120).mem.get (placed 0xF120).pc.toNat)).isGetc = true ∧ (placed 0xF120).inq = [] := by decide
theorem witness_NotifyResumesOnlyAWait :
    waiting.retry = true ∧ waiting.usable = true ∧ waiting.runSet = true ∧ waiting.seq = .awaitingInput ∧
    ¬ deviceAddress waiting.pc ∧ (decode (waiting.mem.get waiting.pc.toNat)).isGetc = true ∧ waiting.inq = [] ∧
    State.reset.retry = false ∧ (State.reset.setSeq .halted).Inv ∧ (State.reset.setSeq .halted).seq ≠ .awaitingInput := by
  decide
theorem witness_SequencerChangesOnlyByRetryOrFault :
    (∃ t, exec (.jmp 0) State.reset = .next t) ∧ (∃ t, exec .trapGetc State.reset = .next t) ∧
    ∃ t, exec (.rti 0) State.reset = .next t := ⟨⟨_, rfl⟩, ⟨_, rfl⟩, ⟨_, rfl⟩⟩
theorem witness_BranchMaskExtremes : (0x01FF : Word) < 0x0200 ∧ State.reset.ccOneHot := by decide
theorem witness_LdiLoadsThroughThePointer :
    ∃ s', memRead (State.reset.pc + sext9 0) State.reset = (0, s') := ⟨_, rfl⟩
theorem witness_StStoresPCRelative :
    State.reset.mem.wf = true ∧ ¬ readOnlyAddress (eaPCRelative 0 State.reset) ∧
    ¬ readOnlyAddress (eaPCRelative 5 (State.reset.setPc 0xFE01)) ∧
    readOnlyAddress (eaPCRelative 0xFF (State.reset.setPc 0xFD01)) := by decide
theorem witness_StiStoresThroughThePointer :
    (eaIndirect 0 (withCell 0x3000 0xFE06 State.reset)).1 = 0xFE06 ∧ ¬ readOnlyAddress 0xFE06 ∧
    (eaIndirect 0 (withCell 0x3000 0xFE04 State.reset)).1 = 0xFE04 ∧ readOnlyAddress 0xFE04 ∧
    (withCell 0x3000 0xFE06 State.reset).mem.wf = true := by decide
theorem witness_StrStoresBaseOffset :
    ¬ readOnlyAddress (eaBaseOffset 2 1 (State.reset.setReg 2 0xFE00)) ∧
    readOnlyAddress (eaBaseOffset 2 2 (State.reset.setReg 2 0xFE00)) ∧ (State.reset.setReg 2 0xFE00).mem.wf = true := by
  decide
theorem witness_TrapEntersTheServiceRoutine : (0x1F : BitVec 8) ≠ 0x20 ∧ (0x21 : BitVec 8) ≠ 0x20 := by decide
theorem witness_GetcTakesOneCodeOrWaits :
    (State.reset.setInq [0x41]).inq = 0x41 :: [] ∧ State.reset.inq = [] := by decide
theorem witness_UnimplementedOpcodesFault :
    (placed 0x8FFF).ready ∧ (memRead (placed 0x8FFF).pc (placed 0x8FFF)).1 = 0x8FFF ∧
    (0x8FFF : Word).extractLsb' 12 4 = 0x8#4 ∧ (placed 0xD000).ready ∧
    (memRead (placed 0xD000).pc (placed 0xD000)).1 = 0xD000 ∧ (0xD000 : Word).extractLsb' 12 4 = 0xD#4 := by decide
theorem witness_ReadsGiveDeviceOrStoredValues :
    State.reset.inq = [] ∧ (State.reset.setInq [1, 2]).inq = 1 :: [2] ∧ ¬ deviceAddress 0xFE01 ∧ ¬ deviceAddress 0xFE07 ∧
    ¬ deviceAddress 0xFDFF ∧ ¬ deviceAddress 0xFFFE := by decide
theorem witness_ReadReturnsTheLatestWrite :
    State.reset.mem.wf = true ∧ ¬ deviceAddress 0xFE01 ∧ ∃ t, memWrite 0xFE01 7 State.reset = .ok t :=
  ⟨by decide, by decide, ⟨_, rfl⟩⟩
theorem witness_KbdrReadsTakeCodesInOrder : (State.reset.setInq [1, 2]).inq = 1 :: 2 :: [] := by decide
theorem witness_StoreIsSeenByTheNextFetch :
    (placed 0x3600).ready ∧ (placed 0x3600).mem.wf = true ∧ ¬ deviceAddress (placed 0x3600).pc ∧
    ¬ deviceAddress ((placed 0x3600).pc + 1) ∧ (placed 0x3600).pc + 1 ≠ 0xFFFE ∧
    (placed 0x3600).mem.get (placed 0x3600).pc.toNat = encode (.st 3 0) := by decide
theorem witness_ClearingRunHaltsAtTheNextCheck :
    State.reset.usable = true ∧ State.reset.seq = .running ∧ State.reset.mem.wf = true ∧
    (State.reset.reg 0).getLsbD 15 = false ∧ eaPCRelative 1 (State.reset.setPc 0xFFFD) = 0xFFFE ∧
    (eaIndirect 0 (withCell 0x3000 0xFFFE State.reset)).1 = 0xFFFE ∧
    eaBaseOffset 1 0 (State.reset.setReg 1 0xFFFE) = 0xFFFE := by decide
theorem witness_StepKeepsTheInvariant : (placed 0x1021).Inv ∧ ∃ t, step (placed 0x1021) = .next t :=
  ⟨by decide, ⟨_, rfl⟩⟩
theorem witness_HostMovesKeepTheInvariant : params.wf ∧ waiting.Inv := by decide
theorem witness_ReachableStatesSatisfyTheInvariant : params.wf ∧ Reachable params (State.construct params.gprInit [] [] 0) :=
  ⟨by decide, .constructed [] [] 0⟩
theorem witness_OnlyNamedInstructionsWriteRegisters :
    ∃ t, exec (.st 0 0) State.reset = .next t ∧ (∀ reason : Fault, t.seq ≠ .faulted reason) ∧
      (Instr.st 0 0).writtenReg ≠ some 0 := ⟨_, rfl, fun r h => absurd (show Seq.running = .faulted r from h) (by simp), by decide⟩
theorem witness_OnlySettersChangeTheConditionCode :
    ∃ t, exec (.trap 0x25) State.reset = .next t ∧ (∀ reason : Fault, t.seq ≠ .faulted reason) ∧
      (Instr.trap 0x25).setsCc = false := ⟨_, rfl, fun r h => absurd (show Seq.running = .faulted r from h) (by simp), by decide⟩
theorem witness_OnlyStoresChangeMemoryOrOutput :
    ∃ t, exec (.ld 0 0) State.reset = .next t ∧ (∀ reason : Fault, t.seq ≠ .faulted reason) ∧
      (Instr.ld 0 0).isStore = false := ⟨_, rfl, fun r h => absurd (show Seq.running = .faulted r from h) (by simp), by decide⟩
theorem witness_OnlyTransfersWriteThePC :
    ∃ t, exec .trapGetc (State.reset.setInq [1]) = .next t ∧ (∀ reason : Fault, t.seq ≠ .faulted reason) ∧
      Instr.trapGetc.isTransfer = false ∧ (State.reset.setInq [1]).inq ≠ [] :=
  ⟨_, rfl, fun r h => absurd (show Seq.running = .faulted r from h) (by simp), by decide, by decide⟩
theorem witness_StepOutputsAtMostOneCode : ∃ t, step (withCell 0x3001 0xFE06 (placed 0xB000)) = .next t := ⟨_, rfl⟩
theorem witness_StepTakesInputOnlyFromTheFront :
    ∃ t, step ((State.reset.setPc 0xFE02).setInq [0xA1FF, 0xFE02, 0x41]) = .next t := ⟨_, rfl⟩
theorem witness_OutputIsNeverReadBack :
    (∃ t, step State.reset = .next t ∧ ∀ reason : Fault, t.seq ≠ .faulted reason) ∧
    (∃ t, step (placed 0x8000) = .next t ∧ t.seq = .faulted (.unimplementedRTI 0x8000)) ∧
    step (State.reset.setSeq (.faulted (.unimplementedRTI 0x8000))) = .fault (.unimplementedRTI 0x8000) ∧
    step (State.reset.setUsable false) = .refused .unusableUntilReset :=
  ⟨⟨_, rfl, fun r h => absurd (show Seq.running = .faulted r from h) (by simp)⟩, ⟨_, rfl, rfl⟩, rfl, rfl⟩
theorem witness_OnlyResetLeavesHaltedOrFaulted :
    (State.reset.setSeq .halted).Inv ∧ (State.reset.setSeq (.faulted (.readOnlyDeviceWrite 0xFE04))).Inv ∧
    (∃ t, step (State.reset.setSeq .halted) = .next t) ∧ HostMove.notify ≠ .reset :=
  ⟨by decide, by decide, ⟨_, rfl⟩, by decide⟩
/-- Payloads that end just below KBSR and start just above DDR, and one that ends at the bound. -/
theorem witness_LoadCopiesThePayload :
    State.reset.usable = true ∧ State.reset.mem.wf = true ∧ [0x12, 0x34].length = 2 * 1 ∧
    ((0xFF : Byte) ++ (0xFE : Byte) : Word).toNat + 1 ≤ 0xFFFF ∧ coversDevice 0xFDFF 1 = false ∧
    coversDevice 0xFE07 1 = false ∧ coversDevice 0xFFFE 1 = false := by decide
/-- The last word of the address space, and a range that both exceeds the bound and covers the device addresses. -/
theorem witness_LoadOverTheBoundIsTooLarge :
    State.reset.usable = true ∧ [0x12, 0x34].length = 2 * 1 ∧
    0xFFFF < ((0xFF : Byte) ++ (0xFF : Byte) : Word).toNat + 1 ∧ (List.replicate 0x800 (0 : Byte)).length = 2 * 0x400 ∧
    0xFFFF < ((0xFD : Byte) ++ (0x00 : Byte) : Word).toNat + 0x400 ∧ coversDevice 0xFD00 0x400 = true :=
  ⟨by decide, by decide, by decide, List.length_replicate, by decide, by decide⟩
theorem witness_MalformedOrDeviceLoadsAreRefused :
    State.reset.usable = true ∧ [1].length < 2 ∧ [1, 2, 3].length % 2 = 1 ∧
    ((0xFD : Byte) ++ (0xFF : Byte) : Word).toNat + 2 ≤ 0xFFFF ∧ deviceAddress 0xFE00 ∧
    ((0xFD : Byte) ++ (0xFF : Byte) : Word).toNat ≤ (0xFE00 : Word).toNat ∧
    (0xFE00 : Word).toNat < ((0xFD : Byte) ++ (0xFF : Byte) : Word).toNat + 2 := by decide
theorem witness_ImageRoundTrip :
    State.reset.usable = true ∧ State.reset.mem.wf = true ∧ (0xFFFE : Word).toNat + 1 ≤ 0xFFFF ∧
    coversDevice 0xFFFE 1 = false := by decide
theorem witness_BatchesOnlyGroupSteps :
    State.reset.seq = .running ∧ ∃ t, runBatch 1 State.reset = .next t := ⟨by decide, ⟨_, rfl⟩⟩
theorem witness_BatchesOnlyGroupSteps_still_running :
    ∃ t, runBatch 2 State.reset = .next t ∧ t.seq = .running := ⟨_, rfl, rfl⟩
theorem witness_ObservationShowsAUsableMachine :
    State.reset.usable = true ∧ State.reset.seq = .running ∧ deviceAddress 0xFE00 ∧ ¬ deviceAddress 0xFE01 ∧
    deviceAddress 0xFE06 ∧ ¬ deviceAddress 0xFE07 ∧
    see (placed 0x8000) (fun t => (t.usable, t.seq)) = some (true, .faulted (.unimplementedRTI 0x8000)) := by decide
theorem test_hostBatch_one_step : (after (hostBatch params State.reset)).map (fun t => t.pc) = some 0x3001 := by decide

end Sys2Proof.Tests
end

section
/-! PROOFS. The field extensions of 00_scope.md R11: the bits of an extended field and the value they stand for. -/

namespace Sys2Proof.Machine

/-- R11's "copying bit N-1 of `f` into bits 15:N", for the width N = n + 1. -/
theorem getLsbD_signExtend_eq_min {n : Nat} (f : BitVec (n + 1)) {k : Nat} (hk : k < 16) :
    (f.signExtend 16).getLsbD k = f.getLsbD (min k n) := by
  rw [BitVec.getLsbD_signExtend]
  by_cases hfield : k < n + 1
  · simp [hk, hfield, Nat.min_eq_left (Nat.le_of_lt_succ hfield)]
  · simp [hk, hfield, Nat.min_eq_right (by omega : n ≤ k), BitVec.msb_eq_getLsbD_last]

/-- R11 keeps the signed value of a field of N = n + 1 bits, so the word lies in the range of N-bit two's complement. -/
theorem toInt_signExtend_word {n : Nat} (hn : n < 16) (f : BitVec (n + 1)) :
    (f.signExtend 16).toInt = f.toInt ∧ -2 ^ n ≤ (f.signExtend 16).toInt ∧ (f.signExtend 16).toInt ≤ 2 ^ n - 1 := by
  have hkeep : (f.signExtend 16).toInt = f.toInt := BitVec.toInt_signExtend_of_le hn
  have hlow : -2 ^ n ≤ f.toInt := BitVec.le_toInt f
  have hhigh : f.toInt < 2 ^ n := BitVec.toInt_lt
  rw [hkeep]
  exact ⟨rfl, hlow, Int.le_sub_one_of_lt hhigh⟩

/-- The trap vector's extension has the vector's bits, and zeros above them. -/
theorem getLsbD_zext8 (f : BitVec 8) {k : Nat} (hk : k < 16) : (zext8 f).getLsbD k = f.getLsbD k := by
  simp [zext8, hk]

@[simp] theorem toNat_zext8 (f : BitVec 8) : (zext8 f).toNat = f.toNat :=
  BitVec.toNat_setWidth_of_le (by decide)

/-- Settles O20: the four sign extensions are the two general facts at N = 5, 6, 9 and 11. -/
theorem extensionsKeepTheValue : Obligations.ExtensionsKeepTheValue :=
  ⟨fun f => ⟨fun _ hk => getLsbD_signExtend_eq_min f hk, toInt_signExtend_word (by decide) f⟩,
    fun f => ⟨fun _ hk => getLsbD_signExtend_eq_min f hk, toInt_signExtend_word (by decide) f⟩,
    fun f => ⟨fun _ hk => getLsbD_signExtend_eq_min f hk, toInt_signExtend_word (by decide) f⟩,
    fun f => ⟨fun _ hk => getLsbD_signExtend_eq_min f hk, toInt_signExtend_word (by decide) f⟩,
    fun f => ⟨fun _ hk => getLsbD_zext8 f hk, toNat_zext8 f⟩⟩

end Sys2Proof.Machine
end

section
/-! PROOFS. What an instruction can do, said once for all twenty: every later fact about `exec` and `step` is read off
`ExecEffect`. -/

namespace Sys2Proof.Machine

/-- A read takes at most one code from the front of the input queue, and changes nothing else. -/
theorem memRead_drop (a : Word) (s : State) : ∃ k ≤ 1, (memRead a s).2 = s.setInq (s.inq.drop k) := by
  rcases memRead_state a s with h | ⟨-, code, rest, hq, h⟩
  · exact ⟨0, Nat.zero_le 1, h⟩
  · exact ⟨1, Nat.le_refl 1, by rw [h, hq]; rfl⟩

/-- Everything an instruction can do, each with the classes of instructions that can do it. `k` is the number of codes
that the instruction's reads have taken from the front of the input queue: at most two, LDI's pointer and data. -/
inductive ExecEffect (i : Instr) (s : State) : State → Prop
  | result (k : Nat) (dr : Reg) (v : Word) (hk : k ≤ 2) (hcc : i.setsCc = true) (hreg : i.writtenReg = some dr) :
      ExecEffect i s ((s.setInq (s.inq.drop k)).writeResult dr v)
  | jump (v : Word) (htransfer : i.isTransfer = true) : ExecEffect i s (s.setPc v)
  | linkJump (v : Word) (htransfer : i.isTransfer = true) (hreg : i.writtenReg = some linkReg) :
      ExecEffect i s (s.link.setPc v)
  | takeCode (code : Word) (rest : List Word) (hgetc : i.isGetc = true) (hreg : i.writtenReg = some 0)
      (hq : s.inq = code :: rest) : ExecEffect i s ((s.setInq rest).setReg 0 code)
  | wait (hgetc : i.isGetc = true) (hq : s.inq = []) : ExecEffect i s s.enterAwaitingInput
  | output (k : Nat) (v : Word) (hk : k ≤ 2) (hstore : i.isStore = true) :
      ExecEffect i s ((s.setInq (s.inq.drop k)).putOut v)
  | store (k : Nat) (a v : Word) (hk : k ≤ 2) (hstore : i.isStore = true) (ha : ¬ deviceAddress a) :
      ExecEffect i s ((s.setInq (s.inq.drop k)).setMem (s.mem.put a.toNat v))
  | fault (k : Nat) (reason : Fault) (hk : k ≤ 2) (hfault : i.canFault = true) (hlegal : reason.legal = true) :
      ExecEffect i s ((s.setInq (s.inq.drop k)).enterFault reason)

/-- The instruction completes with a next state, and that state is one of its effects. -/
abbrev HasEffect (i : Instr) (s : State) (o : Host.Outcome State Fault Refusal) : Prop :=
  ∃ t, o = .next t ∧ ExecEffect i s t

section
variable {i : Instr} {s : State}

/-- An instruction that computes its result from the registers. -/
theorem hasEffect_writeResult {dr : Reg} (v : Word) (hcc : i.setsCc = true) (hreg : i.writtenReg = some dr) :
    HasEffect i s (settle (.success (s.writeResult dr v))) :=
  ⟨_, rfl, .result 0 dr v (by decide) hcc hreg⟩

/-- A load whose earlier read, if any, has taken `k` codes. -/
theorem hasEffect_loadFrom {dr : Reg} {k : Nat} (a : Word) (hk : k ≤ 1) (hcc : i.setsCc = true)
    (hreg : i.writtenReg = some dr) : HasEffect i s (settle (loadFrom dr a (s.setInq (s.inq.drop k)))) := by
  obtain ⟨j, hj, hread⟩ := memRead_drop a (s.setInq (s.inq.drop k))
  have htwo : k + j ≤ 2 := by omega
  rw [loadFrom_eq, hread, settle_success, State.setInq_inq, List.drop_drop]
  exact ⟨_, rfl, .result (k + j) dr _ htwo hcc hreg⟩

theorem readOnlyDeviceWrite_legal {a : Word} (h : readOnlyAddress a) : (Fault.readOnlyDeviceWrite a).legal = true := by
  rcases h with rfl | rfl | rfl <;> decide

/-- A store whose earlier read, if any, has taken `k` codes. -/
theorem hasEffect_storeAt {k : Nat} (a v : Word) (hk : k ≤ 1) (hstore : i.isStore = true) (hfault : i.canFault = true) :
    HasEffect i s (settle (storeAt a v (s.setInq (s.inq.drop k)))) := by
  have htwo : k ≤ 2 := by omega
  rcases storeAt_cases a v (s.setInq (s.inq.drop k)) with ⟨ha, h⟩ | ⟨-, h⟩ | ⟨ha, h⟩ <;> rw [h]
  · exact ⟨_, rfl, .fault k _ htwo hfault (readOnlyDeviceWrite_legal ha)⟩
  · exact ⟨_, rfl, .output k v htwo hstore⟩
  · exact ⟨_, rfl, .store k a v htwo hstore ha⟩

/-- The x20 path of TRAP, under either of its two terms. -/
theorem hasEffect_getc (hgetc : i.isGetc = true) (hreg : i.writtenReg = some 0) : HasEffect i s (settle (getc s)) := by
  rcases getc_cases s with ⟨hq, h⟩ | ⟨code, rest, hq, h⟩ <;> rw [h]
  · exact ⟨_, rfl, .wait hgetc hq⟩
  · exact ⟨_, rfl, .takeCode code rest hgetc hreg hq⟩

/-- RTI and the reserved opcode. -/
theorem hasEffect_fatal {reason : Fault} (hfault : i.canFault = true) (hlegal : reason.legal = true) :
    HasEffect i s (settle (.fatal reason s)) :=
  ⟨_, rfl, .fault 0 reason (by decide) hfault hlegal⟩

end

theorem opField_append (op : BitVec 4) (low12 : BitVec 12) : opField (op ++ low12) = op :=
  extractLsb'_of_bits fun k _ => BitVec.getLsbD_append.trans (by simp)

/-- Every instruction has a next state, and it is one of the instruction's effects. -/
theorem exec_hasEffect (i : Instr) (s : State) : HasEffect i s (exec i s) := by
  cases i with
  | br nzp offset9 =>
    simp only [exec, execBr]
    split
    · exact ⟨_, rfl, .jump _ rfl⟩
    · exact ⟨_, rfl, .jump s.pc rfl⟩
  | add dr sr1 sr2 => exact hasEffect_writeResult _ rfl rfl
  | addi dr sr1 imm5 => exact hasEffect_writeResult _ rfl rfl
  | and dr sr1 sr2 => exact hasEffect_writeResult _ rfl rfl
  | andi dr sr1 imm5 => exact hasEffect_writeResult _ rfl rfl
  | not dr sr => exact hasEffect_writeResult _ rfl rfl
  | lea dr offset9 => exact hasEffect_writeResult _ rfl rfl
  | ld dr offset9 => exact hasEffect_loadFrom (k := 0) _ (by decide) rfl rfl
  | ldr dr baseR offset6 => exact hasEffect_loadFrom (k := 0) _ (by decide) rfl rfl
  | ldi dr offset9 =>
    obtain ⟨k, hk, hptr⟩ := memRead_drop (eaPCRelative offset9 s) s
    simp only [exec, execLdi, eaIndirect, hptr]
    exact hasEffect_loadFrom _ hk rfl rfl
  | st sr offset9 => exact hasEffect_storeAt (k := 0) _ _ (by decide) rfl rfl
  | str sr baseR offset6 => exact hasEffect_storeAt (k := 0) _ _ (by decide) rfl rfl
  | sti sr offset9 =>
    obtain ⟨k, hk, hptr⟩ := memRead_drop (eaPCRelative offset9 s) s
    simp only [exec, execSti, eaIndirect, hptr]
    exact hasEffect_storeAt _ _ hk rfl rfl
  | jmp baseR => exact ⟨_, rfl, .jump _ rfl⟩
  | jsr offset11 => exact ⟨_, rfl, .linkJump _ rfl rfl⟩
  | jsrr baseR => exact ⟨_, rfl, .linkJump _ rfl rfl⟩
  | trap trapvect8 =>
    by_cases hv : trapvect8 = getcVector
    · simp only [exec, execTrap, hv, if_true]
      exact hasEffect_getc rfl rfl
    · simp only [exec, execTrap, hv, if_false, trapEntry_eq]
      exact ⟨_, rfl, .linkJump _ rfl (if_neg hv)⟩
  | trapGetc => exact hasEffect_getc rfl rfl
  | rti low12 => exact hasEffect_fatal rfl (by simp [Fault.legal, encode, opField_append])
  | reserved low12 => exact hasEffect_fatal rfl (by simp [Fault.legal, encode, opField_append])

/-- Whatever next state an instruction gives is one of its effects. -/
theorem exec_effect {i : Instr} {s t : State} (h : exec i s = .next t) : ExecEffect i s t := by
  obtain ⟨u, hu, heffect⟩ := exec_hasEffect i s
  cases h.symm.trans hu
  exact heffect

end Sys2Proof.Machine
end

section
/-! PROOFS. The rules of 10_state.md about what an instruction writes (R22, R27), and `setcc` (R24 to R26). -/

namespace Sys2Proof.Machine

/-- Settles O45: an effect that writes a register writes the one of `Instr.writtenReg`. -/
theorem onlyNamedInstructionsWriteRegisters : Obligations.OnlyNamedInstructionsWriteRegisters := by
  intro i s t q h hrun hq
  cases exec_effect h with
  | result k dr v _ _ hreg =>
    have hne : q ≠ dr := fun e => hq (e ▸ hreg)
    exact State.reg_setReg_other _ hne v
  | linkJump v _ hreg =>
    have hne : q ≠ linkReg := fun e => hq (e ▸ hreg)
    exact State.reg_setReg_other _ hne s.pc
  | takeCode code rest _ hreg _ =>
    have hne : q ≠ 0 := fun e => hq (e ▸ hreg)
    exact State.reg_setReg_other _ hne code
  | fault k reason _ _ _ => exact absurd rfl (hrun reason)
  | jump | wait | output | store => rfl

/-- Settles O46: the only effect that sets the status register is a result's. -/
theorem onlySettersChangeTheConditionCode : Obligations.OnlySettersChangeTheConditionCode := by
  intro i s t h hrun hcc
  cases exec_effect h with
  | result k dr v _ hsets _ => exact absurd (hsets.symm.trans hcc) (by decide)
  | fault k reason _ _ _ => exact absurd rfl (hrun reason)
  | jump | linkJump | takeCode | wait | output | store => rfl

/-- The status register after `setcc` is one of R26's three values. -/
theorem setcc_oneHot (s : State) (v : Word) : (s.setcc v).ccOneHot := by
  rcases ccOf_cases v with ⟨-, h⟩ | ⟨-, -, h⟩ | ⟨-, -, h⟩
  · exact .inr (.inl h)
  · exact .inr (.inr h)
  · exact .inl h

/-- The flags after `setcc` are those of the value (R25). -/
theorem setcc_flagsOf (s : State) (v : Word) : FlagsOf v (s.setcc v) := by
  show ((ccOf v).getLsbD 1 = true ↔ _) ∧ ((ccOf v).getLsbD 2 = true ↔ _) ∧ ((ccOf v).getLsbD 0 = true ↔ _)
  rcases ccOf_cases v with ⟨hv, h⟩ | ⟨hv, hn, h⟩ | ⟨hv, hn, h⟩ <;> rw [h]
  · exact ⟨iff_of_true rfl hv, iff_of_false (by decide) (by simp [hv]), iff_of_false (by decide) (by simp [hv])⟩
  · exact ⟨iff_of_false (by decide) hv, iff_of_true rfl hn, iff_of_false (by decide) (by simp [hn])⟩
  · exact ⟨iff_of_false (by decide) hv, iff_of_false (by decide) (Bool.eq_false_iff.1 hn), iff_of_true rfl ⟨hv, hn⟩⟩

/-- Settles O19, by the three cases of the value: zero, negative, positive. -/
theorem setccIsOneHotAndAgrees : Obligations.SetccIsOneHotAndAgrees :=
  fun s v => ⟨setcc_oneHot s v, setcc_flagsOf s v⟩

end Sys2Proof.Machine
end

section
/-! PROOFS. The invariant: it holds at construction, and every CPU step and every host move keeps it. -/

namespace Sys2Proof.Machine

/-! ### The operations -/

theorem State.Inv.mem_wf {s : State} (h : s.Inv) : s.mem.wf = true := h.1

theorem State.Inv.mem_noDeviceCell {s : State} (h : s.Inv) : s.mem.noDeviceCell = true := h.2.1

/-- The retry flag is set only while waiting (R34). -/
theorem State.Inv.retry_eq_false {s : State} (h : s.Inv) (hseq : s.seq ≠ .awaitingInput) : s.retry = false := by
  obtain ⟨-, -, -, hretry, -⟩ := h
  exact Bool.eq_false_iff.2 fun hset => hseq (hretry.1 hset)

theorem State.Inv.writeResult {s : State} (h : s.Inv) (dr : Reg) (v : Word) : (s.writeResult dr v).Inv := by
  obtain ⟨hwf, hdev, -, hretry, hlegal⟩ := h
  exact ⟨hwf, hdev, setcc_oneHot s v, hretry, hlegal⟩

theorem State.Inv.setMem {s : State} (h : s.Inv) {m : Memory} (hwf : m.wf = true) (hdev : m.noDeviceCell = true) :
    (s.setMem m).Inv := by
  obtain ⟨-, -, hcc, hretry, hlegal⟩ := h
  exact ⟨hwf, hdev, hcc, hretry, hlegal⟩

/-- A plain store lists no cell behind a device address. -/
theorem Memory.noDeviceCell_put_plain {m : Memory} (hm : m.noDeviceCell = true) {a : Word} (ha : ¬ deviceAddress a)
    (v : Word) : (m.put a.toNat v).noDeviceCell = true :=
  Memory.noDeviceCell_put hm (fun d hd he => ha ((BitVec.eq_of_toNat_eq he : d = a) ▸ hd)) v

theorem State.Inv.enterAwaitingInput {s : State} (h : s.Inv) : s.enterAwaitingInput.Inv := by
  obtain ⟨hwf, hdev, hcc, -, -⟩ := h
  exact ⟨hwf, hdev, hcc, iff_of_true rfl rfl, rfl⟩

theorem State.Inv.setSeq_of_retry_clear {s : State} (h : s.Inv) (hretry : s.retry = false) {q : Seq}
    (hq : q ≠ .awaitingInput) (hlegal : q.legal = true) : (s.setSeq q).Inv := by
  obtain ⟨hwf, hdev, hcc, -, -⟩ := h
  exact ⟨hwf, hdev, hcc, iff_of_false (by simp [hretry]) hq, hlegal⟩

theorem fetch_inv {s : State} (h : s.Inv) : (fetch s).2.Inv := by
  rw [fetch_eq, memRead_frame]
  exact h

/-! ### CPU steps -/

/-- Every effect of an instruction of a running machine keeps the invariant. -/
theorem ExecEffect.inv {i : Instr} {s t : State} (he : ExecEffect i s t) (h : s.Inv) (hretry : s.retry = false) :
    t.Inv := by
  cases he with
  | result k dr v => exact State.Inv.writeResult (s := s.setInq _) h dr v
  | jump | linkJump | takeCode | output => exact h
  | wait => exact h.enterAwaitingInput
  | store k a v _ _ ha =>
    exact State.Inv.setMem (s := s.setInq _) h (Memory.wf_put_word h.mem_wf a v)
      (Memory.noDeviceCell_put_plain h.mem_noDeviceCell ha v)
  | fault k reason _ _ hlegal => exact State.enterFault_inv hretry hlegal

/-- Settles O42, by the cases of a step: a halt at the run check, an instruction after the fetch, or no move at all. -/
theorem stepKeepsTheInvariant : Obligations.StepKeepsTheInvariant := by
  intro s t h hstep
  rcases step_cases s with ⟨-, hs⟩ | ⟨-, hrun, -, hs⟩ | ⟨⟨-, hrun, -⟩, hs⟩ | ⟨-, -, hs⟩ | ⟨-, reason, -, hs⟩ <;>
    rw [hs] at hstep
  · cases hstep
  · cases hstep
    exact h.setSeq_of_retry_clear (h.retry_eq_false (by simp [hrun])) (by decide) rfl
  · have hseq : (fetch s).2.seq = .running := by simp [fetch_eq, hrun]
    exact (exec_effect hstep).inv (fetch_inv h) ((fetch_inv h).retry_eq_false (by simp [hseq]))
  · cases hstep
    exact h
  · cases hstep

/-! ### Host moves -/

theorem construct_inv (g : Vector Word 8) (inq out : List Word) (draws : Nat) : (State.construct g inq out draws).Inv :=
  ⟨rfl, rfl, .inr (.inl rfl), iff_of_false Bool.false_ne_true (by simp [State.construct]), rfl⟩

/-- Settles O41: the reset state is a construction with zero registers and empty queues. -/
theorem constructionSatisfiesTheInvariant : Obligations.ConstructionSatisfiesTheInvariant :=
  ⟨construct_inv, construct_inv _ _ _ _⟩

theorem notify_inv {s : State} (h : s.Inv) : (notify s).Inv := by
  unfold notify
  split
  · obtain ⟨hwf, hdev, hcc, -, -⟩ := h
    exact ⟨hwf, hdev, hcc, iff_of_false Bool.false_ne_true (by simp), rfl⟩
  · exact h

theorem coversDevice_eq_false {base n : Nat} :
    coversDevice base n = false ↔ ∀ d ∈ deviceAddresses, ¬ (base ≤ d.toNat ∧ d.toNat < base + n) := by
  simp only [coversDevice, List.any_eq_false, Bool.and_eq_true, decide_eq_true_eq]

/-- The loader's copy lists no cell behind a device address if its range covers none (70_reset_and_hazards.md R209). -/
theorem Memory.noDeviceCell_loadWords (payload : List Byte) {base : Nat} {m : Memory} (hm : m.noDeviceCell = true)
    (hcover : coversDevice base (payload.length / 2) = false) : (loadWords base payload m).noDeviceCell = true := by
  match payload with
  | [] => exact hm
  | [_] => exact hm
  | hi :: lo :: rest =>
    rw [coversDevice_eq_false, List.length_cons, List.length_cons] at hcover
    have hhead : ∀ d ∈ deviceAddresses, d.toNat ≠ base := fun d hd => by have := hcover d hd; omega
    have htail : coversDevice (base + 1) (rest.length / 2) = false :=
      coversDevice_eq_false.2 fun d hd => by have := hcover d hd; omega
    exact Memory.noDeviceCell_loadWords rest (Memory.noDeviceCell_put hm hhead _) htail

/-- A load that succeeds has copied a payload within the bound that covers no device (70_reset_and_hazards.md R206). -/
theorem load_success {limit : Nat} {bytes : List Byte} {s t : State} (h : load limit bytes s = (.success, t)) :
    ∃ (base : Nat) (payload : List Byte), base + payload.length / 2 ≤ limit ∧
      coversDevice base (payload.length / 2) = false ∧ t = s.setMem (loadWords base payload s.mem) := by
  simp only [load] at h
  split at h
  · split at h
    · next hi lo payload =>
      split at h
      · cases h
      · split at h
        · cases h
        · next hlimit =>
          split at h
          · cases h
          · next hcover =>
            cases h
            exact ⟨_, payload, Nat.le_of_not_lt hlimit, Bool.eq_false_iff.2 hcover, rfl⟩
    · cases h
  · cases h

theorem load_inv {s : State} (h : s.Inv) {limit : Nat} (hlimit : limit ≤ 0x10000) (bytes : List Byte) :
    (load limit bytes s).2.Inv := by
  rcases load_cases limit bytes s with ⟨-, hl⟩ | ⟨-, r, -, hl⟩ | ⟨-, m, hl⟩
  · rw [hl]
    exact h
  · rw [hl]
    exact State.freeMemory_inv h
  · obtain ⟨base, payload, hfit, hcover, ht⟩ := load_success hl
    rw [hl, ht]
    exact h.setMem (Memory.wf_loadWords payload h.mem_wf (hfit.trans hlimit))
      (Memory.noDeviceCell_loadWords payload h.mem_noDeviceCell hcover)

theorem hostMove_inv {p : Config.Params} (hp : p.wf) (m : HostMove) {s : State} (h : s.Inv) : (hostMove p m s).Inv := by
  cases m with
  | enqueue code => exact h
  | notify => exact notify_inv h
  | reset => exact construct_inv _ _ _ _
  | load bytes => exact load_inv h hp.2 bytes

/-- Settles O44, by induction on how the state was reached. -/
theorem reachableStatesSatisfyTheInvariant : Obligations.ReachableStatesSatisfyTheInvariant := by
  intro p s hp hreach
  induction hreach with
  | constructed inq out draws => exact construct_inv _ _ _ _
  | cpu _ hstep ih => exact stepKeepsTheInvariant _ _ ih hstep
  | host m _ ih => exact hostMove_inv hp m ih

/-! ### Halted and Faulted (R34) -/

/-- Only a running machine's step changes the sequencer state. -/
theorem step_seq_of_not_running {s t : State} (hseq : s.seq ≠ .running) (hstep : step s = .next t) : t.seq = s.seq := by
  rcases step_cases s with ⟨-, hs⟩ | ⟨-, hrun, -⟩ | ⟨⟨-, hrun, -⟩, -⟩ | ⟨-, -, hs⟩ | ⟨-, reason, -, hs⟩
  · cases hs.symm.trans hstep
  · exact absurd hrun hseq
  · exact absurd hrun hseq
  · cases hs.symm.trans hstep
    rfl
  · cases hs.symm.trans hstep

/-- The notification resumes only a machine whose retry flag is set (40_execution_cycle.md R110). -/
theorem notify_of_retry_clear {s : State} (h : s.retry = false) : notify s = s := by
  simp [notify, h]

theorem load_seq (limit : Nat) (bytes : List Byte) (s : State) : (load limit bytes s).2.seq = s.seq := by
  rcases load_cases limit bytes s with ⟨-, hl⟩ | ⟨-, r, -, hl⟩ | ⟨-, m, hl⟩ <;> rw [hl] <;> rfl

/-- Settles O53: a step needs Running, and by the invariant the retry flag that a notification needs is clear. -/
theorem onlyResetLeavesHaltedOrFaulted : Obligations.OnlyResetLeavesHaltedOrFaulted := by
  intro p s h hended
  have hrunning : s.seq ≠ .running := by rcases hended with hq | ⟨reason, hq⟩ <;> simp [hq]
  have hwaiting : s.seq ≠ .awaitingInput := by rcases hended with hq | ⟨reason, hq⟩ <;> simp [hq]
  refine ⟨fun t hstep => step_seq_of_not_running hrunning hstep, fun m hm => ?_⟩
  cases m with
  | enqueue code => rfl
  | notify => exact congrArg State.seq (notify_of_retry_clear (h.retry_eq_false hwaiting))
  | reset => exact absurd rfl hm
  | load bytes => exact load_seq _ _ _

end Sys2Proof.Machine
end

section
/-! PROOFS. The output is never read back (10_state.md R33): `prependOut p` is the state with the codes
`p` output before all others, and each operation commutes with it. -/

namespace Sys2Proof.Machine

/-- `s` with the codes `p` output before those of `s`. -/
def State.prependOut (p : List Word) (s : State) : State := s.setOut (p ++ s.out)

/-- The outcome with its next state, if any, changed by `f`. -/
def mapNext (f : State → State) : Host.Outcome State Fault Refusal → Host.Outcome State Fault Refusal
  | .next s => .next (f s)
  | .fault reason => .fault reason
  | .refused reason => .refused reason

/-- The completion with its state changed by `f`. -/
def Completion.map (f : State → State) : Completion → Completion
  | .success s => .success (f s)
  | .retryAfterInterrupt s => .retryAfterInterrupt (f s)
  | .fatal reason s => .fatal reason (f s)

section
variable (p : List Word) (s : State)

@[simp] theorem State.prependOut_pc : (s.prependOut p).pc = s.pc := rfl
@[simp] theorem State.prependOut_reg (r : Reg) : (s.prependOut p).reg r = s.reg r := rfl
@[simp] theorem State.prependOut_mem : (s.prependOut p).mem = s.mem := rfl
@[simp] theorem State.prependOut_inq : (s.prependOut p).inq = s.inq := rfl
@[simp] theorem State.prependOut_seq : (s.prependOut p).seq = s.seq := rfl
@[simp] theorem State.prependOut_usable : (s.prependOut p).usable = s.usable := rfl

theorem branchTaken_prependOut (nzp : BitVec 3) : (s.prependOut p).branchTaken nzp = s.branchTaken nzp := rfl

theorem eaPCRelative_prependOut (offset9 : BitVec 9) :
    eaPCRelative offset9 (s.prependOut p) = eaPCRelative offset9 s := rfl

theorem eaBaseOffset_prependOut (baseR : Reg) (offset6 : BitVec 6) :
    eaBaseOffset baseR offset6 (s.prependOut p) = eaBaseOffset baseR offset6 s := rfl

theorem hasPending_prependOut : (s.prependOut p).hasPending = s.hasPending := rfl

theorem takePending_prependOut : (s.prependOut p).takePending = (s.takePending.1, s.takePending.2.prependOut p) := by
  simp only [State.takePending, State.prependOut_inq]
  cases s.inq <;> rfl

theorem putOut_prependOut (v : Word) : (s.prependOut p).putOut v = (s.putOut v).prependOut p :=
  congrArg s.setOut (List.append_assoc p s.out [v])

theorem memRead_prependOut (a : Word) :
    memRead a (s.prependOut p) = ((memRead a s).1, (memRead a s).2.prependOut p) := by
  unfold memRead
  cases target a with
  | kbdr =>
    simp only [hasPending_prependOut, takePending_prependOut]
    cases s.hasPending <;> rfl
  | kbsr | dsr | ddr | plain => rfl

theorem eaIndirect_prependOut (offset9 : BitVec 9) :
    eaIndirect offset9 (s.prependOut p) = ((eaIndirect offset9 s).1, (eaIndirect offset9 s).2.prependOut p) :=
  memRead_prependOut p s _

theorem storeAt_prependOut (a v : Word) : storeAt a v (s.prependOut p) = (storeAt a v s).map (State.prependOut p) := by
  unfold storeAt memWrite
  cases target a with
  | ddr => exact congrArg Completion.success (putOut_prependOut p s v)
  | kbsr | kbdr | dsr | plain => rfl

theorem loadFrom_prependOut (dr : Reg) (a : Word) :
    loadFrom dr a (s.prependOut p) = (loadFrom dr a s).map (State.prependOut p) := by
  rw [loadFrom_eq, memRead_prependOut]
  rfl

theorem getc_prependOut : getc (s.prependOut p) = (getc s).map (State.prependOut p) := by
  unfold getc
  simp only [hasPending_prependOut, takePending_prependOut]
  split <;> rfl

/-- A fault's entry too: its free contents depend on the number of the draw only. -/
theorem settle_prependOut (c : Completion) :
    settle (c.map (State.prependOut p)) = mapNext (State.prependOut p) (settle c) := by
  cases c <;> rfl

theorem exec_prependOut (i : Instr) : exec i (s.prependOut p) = mapNext (State.prependOut p) (exec i s) := by
  cases i with
  | br nzp offset9 =>
    cases htaken : s.branchTaken nzp <;> simp only [exec, execBr, branchTaken_prependOut, htaken] <;> rfl
  | ld dr offset9 => simp only [exec, execLd, eaPCRelative_prependOut, loadFrom_prependOut, settle_prependOut]
  | ldr dr baseR offset6 =>
    simp only [exec, execLdr, eaBaseOffset_prependOut, loadFrom_prependOut, settle_prependOut]
  | ldi dr offset9 =>
    simp only [exec, execLdi, eaIndirect_prependOut, loadFrom_prependOut, settle_prependOut]
  | st sr offset9 =>
    simp only [exec, execSt, eaPCRelative_prependOut, State.prependOut_reg, storeAt_prependOut, settle_prependOut]
  | str sr baseR offset6 =>
    simp only [exec, execStr, eaBaseOffset_prependOut, State.prependOut_reg, storeAt_prependOut, settle_prependOut]
  | sti sr offset9 =>
    simp only [exec, execSti, eaIndirect_prependOut, State.prependOut_reg, storeAt_prependOut, settle_prependOut]
  | trap trapvect8 =>
    by_cases hv : trapvect8 = getcVector
    · simp only [exec, execTrap, hv, if_true, getc_prependOut, settle_prependOut]
    · simp only [exec, execTrap, hv, if_false, trapEntry_eq]
      rfl
  | trapGetc => simp only [exec, execTrapGetc, getc_prependOut, settle_prependOut]
  | add | addi | and | andi | not | lea | jmp | jsr | jsrr | rti | reserved => rfl

theorem fetch_prependOut : fetch (s.prependOut p) = ((fetch s).1, (fetch s).2.prependOut p) := by
  rw [fetch_eq, fetch_eq, State.prependOut_pc, memRead_prependOut]
  rfl

theorem runningStep_prependOut : runningStep (s.prependOut p) = mapNext (State.prependOut p) (runningStep s) := by
  simp only [runningStep, memRead_mcr, State.prependOut_mem, fetchAndExecute, fetch_prependOut, exec_prependOut]
  split <;> rfl

/-- A step does the same, and outputs the same, whatever was output before it. -/
theorem step_prependOut : step (s.prependOut p) = mapNext (State.prependOut p) (step s) := by
  simp only [step, cpuStep, State.prependOut_usable, State.prependOut_seq, runningStep_prependOut]
  cases s.usable with
  | false => rfl
  | true => cases s.seq <;> rfl

end

/-- Any output is what `prependOut` gives where nothing was output. -/
theorem setOut_eq_prependOut (s : State) (o : List Word) : s.setOut o = (s.setOut []).prependOut o :=
  congrArg s.setOut (List.append_nil o).symm

/-- Settles O51: both steps are the step from an empty output, with the codes output before put before its own. -/
theorem outputIsNeverReadBack : Obligations.OutputIsNeverReadBack := by
  intro s o
  have hs : step s = mapNext (State.prependOut s.out) (step (s.setOut [])) :=
    step_prependOut s.out (s.setOut []) ▸ congrArg step (setOut_eq_prependOut s s.out)
  have ho : step (s.setOut o) = mapNext (State.prependOut o) (step (s.setOut [])) :=
    step_prependOut o (s.setOut []) ▸ congrArg step (setOut_eq_prependOut s o)
  rw [hs, ho]
  cases step (s.setOut []) with
  | next u =>
    refine ⟨fun t ht => ?_, nofun, nofun⟩
    cases ht
    exact ⟨u.out, u.prependOut o, rfl, rfl, rfl, rfl, ⟨rfl, rfl, rfl⟩, fun _ => rfl⟩
  | fault reason => exact ⟨nofun, fun _ h => h, nofun⟩
  | refused reason => exact ⟨nofun, nofun, fun _ h => h⟩

end Sys2Proof.Machine
end

section
/-! PROOFS. The memory access unit (20_memory.md): what a read gives and changes, and what a write does. -/

namespace Sys2Proof.Machine

/-! ### Device reads (R42) -/

/-- The four addresses of R55, one by one. -/
theorem deviceAddress_iff (a : Word) :
    deviceAddress a ↔ a = addrKBSR ∨ a = addrKBDR ∨ a = addrDSR ∨ a = addrDDR := by
  simp [deviceAddress, deviceAddresses]

theorem memRead_kbsr (s : State) : memRead addrKBSR s = (if s.hasPending then 0x8000 else 0x0000, s) := by
  simp only [memRead, target_kbsr]

/-- On an empty queue `takePending` is what KBDR reads, so the guard of R42 makes no difference. -/
theorem memRead_kbdr (s : State) : memRead addrKBDR s = s.takePending := by
  rcases hq : s.inq with _ | ⟨code, rest⟩ <;> simp [memRead, target_kbdr, State.hasPending, State.takePending, hq]

theorem memRead_dsr (s : State) : memRead addrDSR s = (0x8000, s) := by
  simp only [memRead, target_dsr]

theorem memRead_ddr (s : State) : memRead addrDDR s = (0x0000, s) := by
  simp only [memRead, target_ddr]

theorem State.takePending_cons {s : State} {code : Word} {rest : List Word} (hq : s.inq = code :: rest) :
    s.takePending = (code, s.setInq rest) := by
  simp [State.takePending, hq]

theorem State.takePending_nil {s : State} (hq : s.inq = []) : s.takePending = (0x0000, s) := by
  simp [State.takePending, hq]

/-- Settles O35, address by address. -/
theorem readsGiveDeviceOrStoredValues : Obligations.ReadsGiveDeviceOrStoredValues := by
  intro s
  refine ⟨fun hq => ⟨?_, ?_⟩, fun code rest hq => ⟨?_, ?_⟩, memRead_dsr s, memRead_ddr s, ?_⟩
  · exact (memRead_kbsr s).trans (by simp [State.hasPending, hq])
  · exact (memRead_kbdr s).trans (State.takePending_nil hq)
  · exact (memRead_kbsr s).trans (by simp [State.hasPending, hq])
  · exact (memRead_kbdr s).trans (State.takePending_cons hq)
  · intro a hkbsr hkbdr hdsr hddr
    exact memRead_plain (fun ha => by rcases (deviceAddress_iff a).1 ha with h | h | h | h <;> contradiction) s

/-- Settles O36, by the three things a write can do: each address allows one of them. -/
theorem writesFaultOutputOrStore : Obligations.WritesFaultOutputOrStore := by
  intro s a v
  rcases memWrite_cases a v s with ⟨ha, hw⟩ | ⟨ha, hw⟩ | ⟨ha, hw⟩
  · refine ⟨fun _ => hw, fun hddr => absurd hddr (readOnlyAddress_ne_ddr ha), fun hkbsr hkbdr hdsr _ => ?_⟩
    rcases ha with h | h | h <;> contradiction
  · exact ⟨fun hro => absurd ha (readOnlyAddress_ne_ddr hro), fun _ => hw, fun _ _ _ hddr => absurd ha hddr⟩
  · simp only [deviceAddress_iff, not_or] at ha
    obtain ⟨hkbsr, hkbdr, hdsr, hddr⟩ := ha
    exact ⟨fun hro => by rcases hro with h | h | h <;> contradiction, fun h => absurd h hddr, fun _ _ _ _ => hw⟩

/-- Settles O38: each read of KBDR takes the front of the queue it finds. -/
theorem kbdrReadsTakeCodesInOrder : Obligations.KbdrReadsTakeCodesInOrder := by
  intro s first second rest hq
  have hfirst : memRead addrKBDR s = (first, s.setInq (second :: rest)) :=
    (memRead_kbdr s).trans (State.takePending_cons hq)
  have hsecond : memRead addrKBDR (s.setInq (second :: rest)) = (second, s.setInq rest) :=
    (memRead_kbdr _).trans (State.takePending_cons rfl)
  rw [hfirst, hsecond]
  exact ⟨rfl, rfl, rfl⟩

/-! ### Reads after a write (R45, R57) -/

/-- What a read gives depends on the memory by the one cell at its address. -/
theorem memRead_setMem_fst {b : Word} {s : State} {m : Memory} (h : m.get b.toNat = s.mem.get b.toNat) :
    (memRead b (s.setMem m)).1 = (memRead b s).1 := by
  by_cases hb : deviceAddress b
  · rcases (deviceAddress_iff b).1 hb with rfl | rfl | rfl | rfl
    · rw [memRead_kbsr, memRead_kbsr]
      rfl
    · rw [memRead_kbdr, memRead_kbdr]
      rcases hq : s.inq with _ | ⟨code, rest⟩
      · rw [State.takePending_nil hq, State.takePending_nil (s := s.setMem m) hq]
      · rw [State.takePending_cons hq, State.takePending_cons (s := s.setMem m) hq]
    · rw [memRead_dsr, memRead_dsr]
    · rw [memRead_ddr, memRead_ddr]
  · rw [memRead_plain hb, memRead_plain hb]
    exact h

/-- A write of a plain address stores the one cell. -/
theorem memWrite_plain {a : Word} (ha : ¬ deviceAddress a) (v : Word) (s : State) :
    memWrite a v s = .ok (s.setMem (s.mem.put a.toNat v)) := by
  simp only [memWrite, (target_plain_iff a).2 ha]

/-- Settles O37, by the law of the stored cells for the same address and for every other one. -/
theorem readReturnsTheLatestWrite : Obligations.ReadReturnsTheLatestWrite := by
  intro s t a v hwf ha hw
  cases (memWrite_plain ha v s).symm.trans hw
  constructor
  · rw [memRead_plain ha, State.setMem_mem, Memory.get_put_same hwf]
  · intro b hb
    exact memRead_setMem_fst (Memory.get_put_other s.mem (fun h => hb (BitVec.eq_of_toNat_eq h)) v)

end Sys2Proof.Machine
end

section
/-! PROOFS. What a step can do to memory, output and input queue (20_memory.md R41, R52 to R54), read off the effects of
its instruction. -/

namespace Sys2Proof.Machine

/-- Settles O47: the effects that store or output belong to the stores. -/
theorem onlyStoresChangeMemoryOrOutput : Obligations.OnlyStoresChangeMemoryOrOutput := by
  intro i s t h hrun hstore
  cases exec_effect h with
  | output k v _ his => exact absurd (his.symm.trans hstore) (by decide)
  | store k a v _ his _ => exact absurd (his.symm.trans hstore) (by decide)
  | fault k reason _ _ _ => exact absurd rfl (hrun reason)
  | result | jump | linkJump | takeCode | wait => exact ⟨fun _ => rfl, rfl⟩

/-- An instruction outputs at most one code, at the end. -/
theorem ExecEffect.out {i : Instr} {s t : State} (he : ExecEffect i s t) :
    t.out = s.out ∨ ∃ v, t.out = s.out ++ [v] := by
  cases he with
  | output k v => exact .inr ⟨v, rfl⟩
  | result | jump | linkJump | takeCode | wait | store | fault => exact .inl rfl

/-- An instruction takes at most two codes, from the front. -/
theorem ExecEffect.inq {i : Instr} {s t : State} (he : ExecEffect i s t) : ∃ k ≤ 2, t.inq = s.inq.drop k := by
  cases he with
  | takeCode code rest _ _ hq => exact ⟨1, by decide, by rw [hq]; rfl⟩
  | result k _ _ hk | output k _ hk | store k _ _ hk | fault k _ hk => exact ⟨k, hk, rfl⟩
  | jump | linkJump | wait => exact ⟨0, by decide, rfl⟩

/-- The fetch takes at most one code, from the front. -/
theorem fetch_inq (s : State) : ∃ k ≤ 1, (fetch s).2.inq = s.inq.drop k := by
  obtain ⟨k, hk, hread⟩ := memRead_drop s.pc s
  exact ⟨k, hk, by rw [fetch_eq, hread]; rfl⟩

/-- A step that gives a next state either keeps both queues or is the effect of an instruction after the fetch. -/
theorem step_next_cases {s t : State} (h : step s = .next t) :
    SameQueues s t ∨ ∃ i, ExecEffect i (fetch s).2 t := by
  rcases step_cases s with ⟨-, hs⟩ | ⟨-, -, -, hs⟩ | ⟨-, hs⟩ | ⟨-, -, hs⟩ | ⟨-, reason, -, hs⟩
  · cases hs.symm.trans h
  · cases hs.symm.trans h
    exact .inl ⟨rfl, rfl⟩
  · exact .inr ⟨_, exec_effect (hs.symm.trans h)⟩
  · cases hs.symm.trans h
    exact .inl ⟨rfl, rfl⟩
  · cases hs.symm.trans h

/-- Settles O49: the fetch outputs nothing, and the instruction at most one code. -/
theorem stepOutputsAtMostOneCode : Obligations.StepOutputsAtMostOneCode := by
  intro s t h
  have hfetch : (fetch s).2.out = s.out := by simp [fetch_eq]
  rcases step_next_cases h with ⟨-, hout⟩ | ⟨i, he⟩
  · exact .inl hout
  · exact hfetch ▸ he.out

/-- A step takes at most three codes from the front of the queue: one by the fetch, two by the instruction. -/
theorem step_inq {s t : State} (h : step s = .next t) : ∃ k ≤ 3, t.inq = s.inq.drop k := by
  rcases step_next_cases h with ⟨hinq, -⟩ | ⟨i, he⟩
  · exact ⟨0, by decide, hinq⟩
  · obtain ⟨j, hj, hfetch⟩ := fetch_inq s
    obtain ⟨k, hk, hexec⟩ := he.inq
    exact ⟨j + k, by omega, by rw [hexec, hfetch, List.drop_drop]⟩

/-- Settles O50: what is left after at most three codes is a tail of the queue. -/
theorem stepTakesInputOnlyFromTheFront : Obligations.StepTakesInputOnlyFromTheFront := by
  intro s t h
  obtain ⟨k, hk, hinq⟩ := step_inq h
  rw [hinq]
  exact ⟨List.drop_suffix k s.inq, by rw [List.length_drop]; omega⟩

end Sys2Proof.Machine
end

section
/-! PROOFS. A stored word is executed with no fence in between (20_memory.md R61, 70_reset_and_hazards.md R213). -/

namespace Sys2Proof.Machine

theorem decode_encode_st (sr : Reg) (offset9 : BitVec 9) : decode (encode (.st sr offset9)) = .st sr offset9 := by
  have hop : opField (encode (.st sr offset9)) = 0x3#4 := extractLsb'_of_bits fun k hk => by
    simp only [encode, BitVec.getLsbD_append]
    interval_cases k <;> simp
  have hsr : field11to9 (encode (.st sr offset9)) = sr := extractLsb'_of_bits fun k hk => by
    simp only [encode, BitVec.getLsbD_append]
    simp [hk]
  have hoffset : offset9Field (encode (.st sr offset9)) = offset9 := extractLsb'_of_bits fun k hk => by
    simp only [encode, BitVec.getLsbD_append]
    simp [hk]
  rw [decode_op3 hop, hsr, hoffset]

/-- ST of a plain address stores the one cell. -/
theorem exec_st_plain {offset9 : BitVec 9} {s : State} (h : ¬ deviceAddress (eaPCRelative offset9 s)) (sr : Reg) :
    exec (.st sr offset9) s = .next (s.setMem (s.mem.put (eaPCRelative offset9 s).toNat (s.reg sr))) := by
  simp only [exec, execSt, storeAt, memWrite_plain h, settle_success]

theorem eaPCRelative_zero (s : State) : eaPCRelative 0 s = s.pc :=
  BitVec.add_zero s.pc

/-- A ready machine fetches and executes. -/
theorem step_of_ready {s : State} (h : s.ready) : step s = exec (decode (fetch s).1) (fetch s).2 := by
  obtain ⟨husable, hseq, hrun⟩ := h
  have hmcr : runBit (s.mem.get addrMCR.toNat) = true := hrun
  simp [step, cpuStep, husable, hseq, runningStep, memRead_mcr, hmcr, fetchAndExecute]

/-- A ready machine at a plain `pc` executes the word stored there. -/
theorem step_at_plain_pc {s : State} (hready : s.ready) (hpc : ¬ deviceAddress s.pc) :
    step s = exec (decode (s.mem.get s.pc.toNat)) (s.setPc (s.pc + 1)) := by
  rw [step_of_ready hready, fetch_eq, memRead_plain hpc]

/-- A write of any cell but MCR leaves the machine ready. -/
theorem State.ready.setMem_put {s : State} (h : s.ready) {a : Word} (ha : a ≠ addrMCR) (v : Word) :
    (s.setMem (s.mem.put a.toNat v)).ready := by
  obtain ⟨husable, hseq, hrun⟩ := h
  have hcell : (s.mem.put a.toNat v).get addrMCR.toNat = s.mem.get addrMCR.toNat :=
    Memory.get_put_other s.mem (fun heq => ha (BitVec.eq_of_toNat_eq heq.symm)) v
  exact ⟨husable, hseq, (congrArg runBit hcell).trans hrun⟩

/-- Settles O39: each of the two steps executes the word stored at its `pc`, and the first has stored the second's. -/
theorem storeIsSeenByTheNextFetch : Obligations.StoreIsSeenByTheNextFetch := by
  intro s sr hready hwf hpc hnext hmcr hword
  let t := (s.setPc (s.pc + 1)).setMem (s.mem.put (s.pc + 1).toNat (s.reg sr))
  have hfirst : step s = .next t := by
    rw [step_at_plain_pc hready hpc, hword, decode_encode_st, exec_st_plain (by rwa [eaPCRelative_zero]),
      eaPCRelative_zero]
    rfl
  have htready : t.ready := State.ready.setMem_put (s := s.setPc (s.pc + 1)) hready hmcr (s.reg sr)
  have hcell : t.mem.get t.pc.toNat = s.reg sr := Memory.get_put_same hwf _ _
  have hpc2 : t.pc + 1 = s.pc + 2 := BitVec.add_assoc s.pc 1 1
  exact ⟨t, hfirst, rfl, by rw [step_at_plain_pc htready hnext, hcell, hpc2]⟩

end Sys2Proof.Machine
end

section
/-! PROOFS. What the host observes (20_memory.md R63, 70_reset_and_hazards.md R212; D26, log 24). -/

namespace Sys2Proof.Machine

theorem State.meaningful_of_not_faulted {s : State} (h : ∀ reason : Fault, s.seq ≠ .faulted reason) :
    s.meaningful = s.usable := by
  cases hq : s.seq with
  | running | awaitingInput | halted => simp only [State.meaningful, hq]
  | faulted reason => exact absurd hq (h reason)

theorem State.meaningful_of_faulted {s : State} {reason : Fault} (h : s.seq = .faulted reason) :
    s.meaningful = false := by
  simp only [State.meaningful, h]

/-- Settles O59: everything but the output is shown exactly where the contents mean something. -/
theorem observationShowsAUsableMachine : Obligations.ObservationShowsAUsableMachine := by
  intro s husable
  refine ⟨if_pos husable, fun hrun => ?_, fun reason hfaulted => ?_⟩
  · have hmeans : s.meaningful = true := (State.meaningful_of_not_faulted hrun).trans husable
    refine ⟨fun a ha => ?_, fun a ha => ?_, fun r => if_pos hmeans, if_pos hmeans⟩
    · have hplain : target a = .plain := (target_plain_iff a).2 ha
      simp [observeCell, hmeans, hplain]
    · have hdevice : target a ≠ .plain := fun h => (target_plain_iff a).1 h ha
      simp [observeCell, hdevice]
  · have hmeans : s.meaningful = false := State.meaningful_of_faulted hfaulted
    exact ⟨fun a => by simp [observeCell, hmeans], fun r => by simp [observeReg, hmeans],
      by simp [observeControl, hmeans]⟩

end Sys2Proof.Machine
end

section
/-! PROOFS. The fields of a word written out by format (30_encoding.md R73 to R83): one simp lemma per format, for every
opcode and every value of the bits beside the fields. -/

namespace Sys2Proof.Machine

open BitVec (extractLsb'_append_eq_of_le extractLsb'_append_eq_of_add_le getLsbD_append)

/-- BR, LD, ST, LDI, STI and LEA (R77, R80). -/
@[simp] theorem fields_offset9 (op : BitVec 4) (r : Reg) (offset9 : BitVec 9) :
    opField (op ++ r ++ offset9) = op ∧ field11to9 (op ++ r ++ offset9) = r ∧
      offset9Field (op ++ r ++ offset9) = offset9 := by
  simp (disch := decide) only [opField, field11to9, offset9Field, extractLsb'_append_eq_of_le,
    extractLsb'_append_eq_of_add_le]
  simp

/-- LDR, STR, NOT and JMP, whatever bits stand below the second register (R76, R78, R81). -/
@[simp] theorem fields_offset6 (op : BitVec 4) (r baseR : Reg) (offset6 : BitVec 6) :
    opField (op ++ r ++ baseR ++ offset6) = op ∧ field11to9 (op ++ r ++ baseR ++ offset6) = r ∧
      field8to6 (op ++ r ++ baseR ++ offset6) = baseR ∧ offset6Field (op ++ r ++ baseR ++ offset6) = offset6 := by
  simp (disch := decide) only [opField, field11to9, field8to6, offset6Field, extractLsb'_append_eq_of_le,
    extractLsb'_append_eq_of_add_le]
  simp

/-- ADD and AND, immediate form (R75). -/
@[simp] theorem fields_imm5 (op : BitVec 4) (dr sr1 : Reg) (imm5 : BitVec 5) :
    opField (op ++ dr ++ sr1 ++ 1#1 ++ imm5) = op ∧ field11to9 (op ++ dr ++ sr1 ++ 1#1 ++ imm5) = dr ∧
      field8to6 (op ++ dr ++ sr1 ++ 1#1 ++ imm5) = sr1 ∧ immFlag (op ++ dr ++ sr1 ++ 1#1 ++ imm5) = true ∧
      imm5Field (op ++ dr ++ sr1 ++ 1#1 ++ imm5) = imm5 := by
  simp (disch := decide) only [opField, field11to9, field8to6, immFlag, imm5Field, getLsbD_append,
    extractLsb'_append_eq_of_le, extractLsb'_append_eq_of_add_le]
  simp

/-- ADD and AND, register form, with any bits 4:3 (R74). -/
@[simp] theorem fields_sr2 (op : BitVec 4) (dr sr1 sr2 : Reg) (x : BitVec 2) :
    opField (op ++ dr ++ sr1 ++ 0#1 ++ x ++ sr2) = op ∧ field11to9 (op ++ dr ++ sr1 ++ 0#1 ++ x ++ sr2) = dr ∧
      field8to6 (op ++ dr ++ sr1 ++ 0#1 ++ x ++ sr2) = sr1 ∧ immFlag (op ++ dr ++ sr1 ++ 0#1 ++ x ++ sr2) = false ∧
      field2to0 (op ++ dr ++ sr1 ++ 0#1 ++ x ++ sr2) = sr2 := by
  simp (disch := decide) only [opField, field11to9, field8to6, immFlag, field2to0, getLsbD_append,
    extractLsb'_append_eq_of_le, extractLsb'_append_eq_of_add_le]
  simp

/-- JSR (R79). -/
@[simp] theorem fields_offset11 (op : BitVec 4) (offset11 : BitVec 11) :
    opField (op ++ 1#1 ++ offset11) = op ∧ longFlag (op ++ 1#1 ++ offset11) = true ∧
      offset11Field (op ++ 1#1 ++ offset11) = offset11 := by
  simp (disch := decide) only [opField, longFlag, offset11Field, getLsbD_append, extractLsb'_append_eq_of_le,
    extractLsb'_append_eq_of_add_le]
  simp

/-- JSRR, with any bits 10:9 and 5:0 (R79). -/
@[simp] theorem fields_jsrr (op : BitVec 4) (x : BitVec 2) (baseR : Reg) (y : BitVec 6) :
    opField (op ++ 0#1 ++ x ++ baseR ++ y) = op ∧ longFlag (op ++ 0#1 ++ x ++ baseR ++ y) = false ∧
      field8to6 (op ++ 0#1 ++ x ++ baseR ++ y) = baseR := by
  simp (disch := decide) only [opField, longFlag, field8to6, getLsbD_append, extractLsb'_append_eq_of_le,
    extractLsb'_append_eq_of_add_le]
  simp

/-- RTI and the reserved opcode (R83). -/
@[simp] theorem fields_low12 (op : BitVec 4) (low12 : BitVec 12) :
    opField (op ++ low12) = op ∧ low12Field (op ++ low12) = low12 := by
  refine ⟨opField_append op low12, ?_⟩
  simp (disch := decide) only [low12Field, extractLsb'_append_eq_of_add_le]
  simp

/-- TRAP, with any bits 11:8 (R82). -/
@[simp] theorem fields_trapvect8 (op x : BitVec 4) (trapvect8 : BitVec 8) :
    opField (op ++ x ++ trapvect8) = op ∧ trapvect8Field (op ++ x ++ trapvect8) = trapvect8 := by
  simp (disch := decide) only [opField, trapvect8Field, extractLsb'_append_eq_of_le, extractLsb'_append_eq_of_add_le]
  simp

end Sys2Proof.Machine
end

section
/-! PROOFS. The encoding: the decoder inverts the encoder, and reads no bit that no format uses (30_encoding.md R72 to
R88; the spec's decisions D2 and D4). -/

namespace Sys2Proof.Machine

/-! The six rows whose words have bits that no rule reads, with any value in them (R86). -/

theorem decode_add (dr sr1 sr2 : Reg) (x : BitVec 2) :
    decode (0x1#4 ++ dr ++ sr1 ++ 0#1 ++ x ++ sr2) = .add dr sr1 sr2 := by
  simp [decode_op1]

theorem decode_and (dr sr1 sr2 : Reg) (x : BitVec 2) :
    decode (0x5#4 ++ dr ++ sr1 ++ 0#1 ++ x ++ sr2) = .and dr sr1 sr2 := by
  simp [decode_op5]

theorem decode_not (dr sr : Reg) (x : BitVec 6) : decode (0x9#4 ++ dr ++ sr ++ x) = .not dr sr := by
  simp [decode_op9]

theorem decode_jmp (baseR : Reg) (x : BitVec 3) (y : BitVec 6) : decode (0xC#4 ++ x ++ baseR ++ y) = .jmp baseR := by
  simp [decode_opC]

theorem decode_jsrr (baseR : Reg) (x : BitVec 2) (y : BitVec 6) :
    decode (0x4#4 ++ 0#1 ++ x ++ baseR ++ y) = .jsrr baseR := by
  obtain ⟨hop, hlong, hbase⟩ := fields_jsrr 0x4#4 x baseR y
  simp only [decode_op4 hop, hlong, hbase, Bool.false_eq_true, if_false]

theorem decode_trap (v : BitVec 8) (x : BitVec 4) :
    decode (0xF#4 ++ x ++ v) = if v = getcVector then .trapGetc else .trap v := by
  simp [decode_opF]

/-- Settles O4: the fields of each format are the same whatever the bits beside them. -/
theorem ignoredBitsAreNotDecoded : Obligations.IgnoredBitsAreNotDecoded :=
  ⟨decode_add, decode_and, decode_not, decode_jmp, decode_jsrr, decode_trap⟩

/-- `encode` writes a selecting bit 0 and the two ignored bits below it as one literal. -/
theorem append_zero3 {n : Nat} (hi : BitVec n) : hi ++ 0#3 = hi ++ 0#1 ++ 0#2 := by
  rw [BitVec.append_assoc]
  rfl

theorem decode_jsr (offset11 : BitVec 11) : decode (0x4#4 ++ 1#1 ++ offset11) = .jsr offset11 := by
  obtain ⟨hop, hlong, hoffset⟩ := fields_offset11 0x4#4 offset11
  simp only [decode_op4 hop, hlong, hoffset, if_true]

/-- Settles O1: row by row, the fields of the word are the operands, and its opcode and selecting bits are the row's. -/
theorem decodeOfEncode : Obligations.DecodeOfEncode := by
  intro i hwf
  cases i with
  | br nzp offset9 => simp [encode, decode_op0]
  | add dr sr1 sr2 =>
    rw [encode, append_zero3]
    exact decode_add dr sr1 sr2 0#2
  | addi dr sr1 imm5 => simp [encode, decode_op1]
  | ld dr offset9 => simp [encode, decode_op2]
  | st sr offset9 => exact decode_encode_st sr offset9
  | jsr offset11 => exact decode_jsr offset11
  | jsrr baseR =>
    rw [encode, append_zero3]
    exact decode_jsrr baseR 0#2 0#6
  | and dr sr1 sr2 =>
    rw [encode, append_zero3]
    exact decode_and dr sr1 sr2 0#2
  | andi dr sr1 imm5 => simp [encode, decode_op5]
  | ldr dr baseR offset6 => simp [encode, decode_op6]
  | str sr baseR offset6 => simp [encode, decode_op7]
  | rti low12 => simp [encode, decode_op8]
  | not dr sr => exact decode_not dr sr _
  | ldi dr offset9 => simp [encode, decode_opA]
  | sti sr offset9 => simp [encode, decode_opB]
  | jmp baseR => exact decode_jmp baseR _ _
  | reserved low12 => simp [encode, decode_opD]
  | lea dr offset9 => simp [encode, decode_opE]
  | trap trapvect8 => exact (decode_trap trapvect8 0#4).trans (if_neg (bne_iff_ne.1 hwf))
  | trapGetc => exact decode_trap getcVector 0#4

/-- The general TRAP row is reached only past the test for TRAP x20; every other row is well-formed as it is. -/
theorem decode_wf (w : Word) : (decode w).wf = true := by
  simp only [decode, apply_ite Instr.wf]
  by_cases hv : trapvect8Field w = getcVector
  · simp [hv, Instr.wf]
  · simp [hv, Instr.wf]

/-- Settles O2: what a word decodes to is well-formed, so decoding its canonical word gives it back. -/
theorem decodedWordsReencode : Obligations.DecodedWordsReencode :=
  fun w => ⟨decode_wf w, decodeOfEncode (decode w) (decode_wf w)⟩

end Sys2Proof.Machine
end

section
/-! PROOFS. The opcode table against the decoder (30_encoding.md R88, spec/opcode_table.json). Every mask of the table
holds the whole opcode field, so a row says one opcode and some of the twelve bits below it. -/

namespace Sys2Proof.Machine

theorem opField_append_low12Field (w : Word) : opField w ++ low12Field w = w :=
  (BitVec.extractLsb'_append_extractLsb'_eq_extractLsb' rfl).trans BitVec.extractLsb'_eq_self

theorem word_eq_iff (v w : Word) : v = w ↔ opField v = opField w ∧ low12Field v = low12Field w := by
  refine ⟨fun h => ⟨congrArg _ h, congrArg _ h⟩, fun ⟨hop, hlow⟩ => ?_⟩
  rw [← opField_append_low12Field v, hop, hlow, opField_append_low12Field]

@[simp] theorem matches_iff_op_low12 {row : OpcodeRow} (hmask : row.mask.extractLsb' 12 4 = 15#4) (w : Word) :
    row.matches w = true ↔ opField w = row.pattern.extractLsb' 12 4 ∧
      low12Field w &&& row.mask.extractLsb' 0 12 = row.pattern.extractLsb' 0 12 := by
  have hop : opField w &&& 15#4 = opField w := BitVec.and_allOnes
  rw [OpcodeRow.matches, beq_iff_eq, word_eq_iff, opField, low12Field, BitVec.extractLsb'_and, BitVec.extractLsb'_and,
    hmask, ← opField, hop, ← low12Field]
  rfl

/-! What the masks 0xF020, 0xF800 and 0xF0FF keep of the low bits: bit 5, bit 11 and the trap vector. -/

theorem low12Field_and_twoPow (w : Word) {i : Nat} (hi : i < 12) :
    low12Field w &&& BitVec.twoPow 12 i = if w.getLsbD i then BitVec.twoPow 12 i else 0#12 := by
  simp [BitVec.and_twoPow, low12Field, hi]

@[simp] theorem low12Field_and_bit5 (w : Word) :
    low12Field w &&& 0x020#12 = if immFlag w then 0x020#12 else 0#12 :=
  low12Field_and_twoPow w (i := 5) (by decide)

@[simp] theorem low12Field_and_bit11 (w : Word) :
    low12Field w &&& 0x800#12 = if longFlag w then 0x800#12 else 0#12 :=
  low12Field_and_twoPow w (i := 11) (by decide)

@[simp] theorem low12Field_and_vector (w : Word) :
    low12Field w &&& 0x0FF#12 = 0x020#12 ↔ trapvect8Field w = getcVector := by
  simp [trapvect8Field, low12Field, getcVector, ← BitVec.toNat_inj, Nat.and_two_pow_sub_one_eq_mod _ 8]

theorem opcode_cases (op : BitVec 4) :
    op = 0x0#4 ∨ op = 0x1#4 ∨ op = 0x2#4 ∨ op = 0x3#4 ∨ op = 0x4#4 ∨ op = 0x5#4 ∨ op = 0x6#4 ∨ op = 0x7#4 ∨
    op = 0x8#4 ∨ op = 0x9#4 ∨ op = 0xA#4 ∨ op = 0xB#4 ∨ op = 0xC#4 ∨ op = 0xD#4 ∨ op = 0xE#4 ∨ op = 0xF#4 := by
  revert op
  decide

/-- Which rows a word belongs to, opcode by opcode: the rows of one opcode are told apart by bit 5, bit 11 or the trap
vector, as in `decode`. -/
theorem matches_iff_mnemonic (w : Word) : ∀ row ∈ opcodeRows, (row.matches w = true ↔
    row.mnemonic = (decode w).mnemonic ∨ row.mnemonic = "TRAP" ∧ decode w = .trapGetc) := by
  simp only [opcodeRows, List.forall_mem_cons]
  rcases opcode_cases (opField w) with hop | hop | hop | hop | hop | hop | hop | hop | hop | hop | hop | hop |
    hop | hop | hop | hop
  · simp [hop, decode_op0, Instr.mnemonic]
  · cases himm : immFlag w
    · simp [hop, decode_op1, Instr.mnemonic, himm]
    · simp [hop, decode_op1, Instr.mnemonic, himm]
  · simp [hop, decode_op2, Instr.mnemonic]
  · simp [hop, decode_op3, Instr.mnemonic]
  · cases hlong : longFlag w
    · simp [hop, decode_op4, Instr.mnemonic, hlong]
    · simp [hop, decode_op4, Instr.mnemonic, hlong]
  · cases himm : immFlag w
    · simp [hop, decode_op5, Instr.mnemonic, himm]
    · simp [hop, decode_op5, Instr.mnemonic, himm]
  · simp [hop, decode_op6, Instr.mnemonic]
  · simp [hop, decode_op7, Instr.mnemonic]
  · simp [hop, decode_op8, Instr.mnemonic]
  · simp [hop, decode_op9, Instr.mnemonic]
  · simp [hop, decode_opA, Instr.mnemonic]
  · simp [hop, decode_opB, Instr.mnemonic]
  · simp [hop, decode_opC, Instr.mnemonic]
  · simp [hop, decode_opD, Instr.mnemonic]
  · simp [hop, decode_opE, Instr.mnemonic]
  · by_cases hv : trapvect8Field w = getcVector
    · simp [hop, decode_opF, Instr.mnemonic, hv]
    · simp [hop, decode_opF, Instr.mnemonic, hv]

theorem exists_row_of_mnemonic (i : Instr) : ∃ row ∈ opcodeRows, row.mnemonic = i.mnemonic := by
  cases i <;> simp [opcodeRows, Instr.mnemonic]

/-- Settles O3: the row that bears the decoded mnemonic matches, and a row that matches bears it or is the general TRAP
row of a TRAP x20 word. -/
theorem everyWordHasOneRow : Obligations.EveryWordHasOneRow := by
  intro w
  refine ⟨?_, fun row hrow => (matches_iff_mnemonic w row hrow).1⟩
  obtain ⟨row, hrow, hname⟩ := exists_row_of_mnemonic (decode w)
  exact ⟨row, hrow, (matches_iff_mnemonic w row hrow).2 (.inl hname), hname⟩

end Sys2Proof.Machine
end

section
/-! PROOFS. The step by sequencer state (40_execution_cycle.md R101 to R104), and what an instruction can do to the
sequencer (R105 to R108). -/

namespace Sys2Proof.Machine

/-- Settles O6: the run check has passed, so what is left is the fetch, and at a plain `pc` the fetch reads the cell. -/
theorem stepRunsDecodedInstruction : Obligations.StepRunsDecodedInstruction := by
  intro s hready
  refine ⟨?_, fun i hpc hword => ?_⟩
  · rw [step_of_ready hready, fetch_eq]
  · rw [step_at_plain_pc hready hpc, hword]

/-- With RUN clear the step halts at the run check, and nothing else changes (R102). -/
theorem step_of_run_clear {s : State} (husable : s.usable = true) (hseq : s.seq = .running) (hrun : s.runSet = false) :
    step s = .next (s.setSeq .halted) := by
  have hmcr : runBit (s.mem.get addrMCR.toNat) = false := hrun
  simp [step, cpuStep, husable, hseq, runningStep, memRead_mcr, hmcr]

/-- Settles O7: bit 15 of the cell 0xFFFE is RUN, so a machine in which it is set is ready. -/
theorem runCheckComesFirst : Obligations.RunCheckComesFirst :=
  fun _ husable hseq =>
    ⟨fun hclear => step_of_run_clear husable hseq hclear, fun hset => step_of_ready ⟨husable, hseq, hset⟩⟩

theorem step_of_awaitingInput {s : State} (husable : s.usable = true) (hseq : s.seq = .awaitingInput) :
    step s = .next s := by
  simp [step, cpuStep, husable, hseq]

theorem step_of_halted {s : State} (husable : s.usable = true) (hseq : s.seq = .halted) : step s = .next s := by
  simp [step, cpuStep, husable, hseq]

theorem step_of_faulted {s : State} {reason : Fault} (husable : s.usable = true) (hseq : s.seq = .faulted reason) :
    step s = .fault reason := by
  simp [step, cpuStep, husable, hseq]

/-- Settles O8, state by state of the sequencer. -/
theorem noStepUnlessRunning : Obligations.NoStepUnlessRunning :=
  fun _ husable => ⟨step_of_awaitingInput husable, step_of_halted husable, fun _ => step_of_faulted husable⟩

/-- Settles O14: the next state of `exec_hasEffect`. -/
theorem everyInstructionHasANextState : Obligations.EveryInstructionHasANextState := by
  intro i s
  obtain ⟨t, hnext, -⟩ := exec_hasEffect i s
  exact ⟨t, hnext⟩

/-- Settles O13: of an instruction's effects only the wait and the fault touch the sequencer. -/
theorem sequencerChangesOnlyByRetryOrFault : Obligations.SequencerChangesOnlyByRetryOrFault := by
  intro i s t h
  cases exec_effect h with
  | wait hgetc hq => exact .inr (.inl ⟨hgetc, hq, rfl, rfl⟩)
  | fault k reason _ hfault hlegal => exact .inr (.inr ⟨hfault, rfl, reason, rfl, hlegal⟩)
  | result | jump | linkJump | takeCode | output | store => exact .inl ⟨rfl, rfl⟩

end Sys2Proof.Machine
end

section
/-! PROOFS. TRAP x20 as a whole step: the wait for input, and how the host's notification ends it
(40_execution_cycle.md R106, R110, 44_trap_and_unimplemented.md R161). -/

namespace Sys2Proof.Machine

/-- Both terms of TRAP x20 mean its x20 path. -/
theorem exec_of_isGetc {i : Instr} (h : i.isGetc = true) (s : State) : exec i s = settle (getc s) := by
  cases i with
  | trapGetc => rfl
  | trap trapvect8 => exact congrArg settle (if_pos (beq_iff_eq.1 h))
  | br | add | addi | ld | st | jsr | jsrr | and | andi | ldr | str | rti | not | ldi | sti | jmp | reserved | lea =>
    cases h

theorem getc_nil {s : State} (hq : s.inq = []) : getc s = .retryAfterInterrupt s := by
  simp [getc, State.hasPending, hq]

theorem getc_cons {s : State} {code : Word} {rest : List Word} (hq : s.inq = code :: rest) :
    getc s = .success ((s.setInq rest).setReg 0 code) := by
  simp [getc, State.hasPending, State.takePending_cons hq, hq]

/-- The rewind of the wait undoes the fetch's increment. -/
theorem enterAwaitingInput_setPc_succ {s : State} {pc : Word} (hpc : s.pc = pc) :
    (s.setPc (pc + 1)).enterAwaitingInput = (s.setRetry true).setSeq .awaitingInput := by
  have hback : pc + 1 - 1 = s.pc := (BitVec.add_sub_cancel pc 1).trans hpc.symm
  rw [State.enterAwaitingInput, State.setPc_pc, hback]
  rfl

/-- A ready machine at a TRAP x20 that has no input after the fetch waits at that TRAP. -/
theorem step_getc_waits {s : State} (hready : s.ready) (hgetc : (decode (memRead s.pc s).1).isGetc = true)
    (hq : (memRead s.pc s).2.inq = []) :
    step s = .next (((memRead s.pc s).2.setRetry true).setSeq .awaitingInput) := by
  have hempty : ((memRead s.pc s).2.setPc (s.pc + 1)).inq = [] := hq
  rw [step_of_ready hready, fetch_eq, exec_of_isGetc hgetc, getc_nil hempty, settle_retry,
    enterAwaitingInput_setPc_succ (memRead_pc s.pc s)]

/-- At a plain `pc` the fetch has changed nothing, so neither has the wait but for the retry flag and the sequencer. -/
theorem step_getc_waits_plain {s : State} (hready : s.ready) (hpc : ¬ deviceAddress s.pc)
    (hgetc : (decode (s.mem.get s.pc.toNat)).isGetc = true) (hq : s.inq = []) :
    step s = .next ((s.setRetry true).setSeq .awaitingInput) := by
  have hread : memRead s.pc s = (s.mem.get s.pc.toNat, s) := memRead_plain hpc s
  have hwait := step_getc_waits hready (by rwa [hread]) (by rwa [hread])
  rwa [hread] at hwait

/-- A ready machine at a plain TRAP x20 with input pending takes one code into R0. -/
theorem step_getc_takes {s : State} {code : Word} {rest : List Word} (hready : s.ready) (hpc : ¬ deviceAddress s.pc)
    (hgetc : (decode (s.mem.get s.pc.toNat)).isGetc = true) (hq : s.inq = code :: rest) :
    step s = .next (((s.setPc (s.pc + 1)).setInq rest).setReg 0 code) := by
  have hpending : (s.setPc (s.pc + 1)).inq = code :: rest := hq
  rw [step_at_plain_pc hready hpc, exec_of_isGetc hgetc, getc_cons hpending, settle_success]

/-- Settles O10: the executor rewinds `pc`, and at a plain `pc` the fetch has changed nothing. -/
theorem getcWithoutInputRewinds : Obligations.GetcWithoutInputRewinds := by
  intro s hready hgetc hq
  have hwait := step_getc_waits hready hgetc hq
  refine ⟨hwait, fun hpc => ?_⟩
  rwa [memRead_plain hpc s] at hwait

/-- The notification of a machine whose retry flag is set (R110). -/
theorem notify_of_retry_set {s : State} (h : s.retry = true) : notify s = (s.setRetry false).setSeq .running :=
  if_pos h

/-- A usable machine with RUN set is ready once a notification has resumed it. -/
theorem notify_ready {s : State} (husable : s.usable = true) (hrun : s.runSet = true) (hretry : s.retry = true) :
    (notify s).ready := by
  rw [notify_of_retry_set hretry]
  exact ⟨husable, rfl, hrun⟩

/-- Settles O11: the wait `t` differs from `s` only in the retry flag and the sequencer, so with the code enqueued the
notification gives back `s` with that code pending. -/
theorem getcResumesAfterNotify : Obligations.GetcResumesAfterNotify := by
  intro s code hready hpc hgetc hq
  have ⟨husable, _, hrun⟩ := hready
  let t := (s.setRetry true).setSeq .awaitingInput
  let resumed := notify (enqueue code t)
  have hresumed : resumed.ready := notify_ready (s := enqueue code t) husable hrun rfl
  have hpending : resumed.inq = [code] := congrArg (· ++ [code]) hq
  refine ⟨t, step_getc_waits_plain hready hpc hgetc hq, step_of_awaitingInput husable rfl,
    step_of_awaitingInput (s := enqueue code t) husable rfl, _,
    step_getc_takes (s := resumed) hresumed hpc hgetc hpending, ?_⟩
  exact ⟨State.reg_setReg_same _ 0 code, rfl, rfl, fun q hne => State.reg_setReg_other _ hne code, rfl, fun _ => rfl,
    rfl, rfl, rfl⟩

/-- The notification leaves the retry flag clear. -/
theorem notify_retry (s : State) : (notify s).retry = false := by
  cases hretry : s.retry with
  | true => rw [notify_of_retry_set hretry]; rfl
  | false => rw [notify_of_retry_clear hretry, hretry]

/-- A resumed TRAP x20 that still finds no input waits again, in the state it waited in. -/
theorem step_notify_waits_again {s : State} (husable : s.usable = true) (hrun : s.runSet = true)
    (hseq : s.seq = .awaitingInput) (hretry : s.retry = true) (hpc : ¬ deviceAddress s.pc)
    (hgetc : (decode (s.mem.get s.pc.toNat)).isGetc = true) (hq : s.inq = []) : step (notify s) = .next s := by
  have hready : (notify s).ready := notify_ready husable hrun hretry
  have hback : (s.setRetry true).setSeq .awaitingInput = s := by rw [← hretry, ← hseq]; rfl
  rw [notify_of_retry_set hretry] at hready ⊢
  exact (step_getc_waits_plain hready hpc hgetc hq).trans (congrArg Host.Outcome.next hback)

/-- Settles O12: the retry flag decides what the notification does, and by the invariant only a wait has it set. -/
theorem notifyResumesOnlyAWait : Obligations.NotifyResumesOnlyAWait :=
  fun s => ⟨notify_of_retry_set, notify_of_retry_clear, notify_of_retry_clear (notify_retry s),
    fun hinv hseq => notify_of_retry_clear (hinv.retry_eq_false hseq), step_notify_waits_again⟩

end Sys2Proof.Machine
end

section
/-! PROOFS. A store that clears RUN (10_state.md R28, 20_memory.md R44, 40_execution_cycle.md R102). -/

namespace Sys2Proof.Machine

/-- A running machine's write of a word with bit 15 clear to MCR completes, and the next step halts. -/
theorem storeAt_mcr_halts {v : Word} {s : State} (husable : s.usable = true) (hseq : s.seq = .running)
    (hwf : s.mem.wf = true) (hv : v.getLsbD 15 = false) :
    ∃ t, settle (storeAt addrMCR v s) = .next t ∧ t.pc = s.pc ∧ step t = .next (t.setSeq .halted) := by
  let t := s.setMem (s.mem.put addrMCR.toNat v)
  have hstore : storeAt addrMCR v s = .success t := by
    rw [storeAt, memWrite_plain (by decide)]
  have hcell : t.mem.get addrMCR.toNat = v := Memory.get_put_same hwf _ v
  have hrun : t.runSet = false := (congrArg runBit hcell).trans hv
  exact ⟨t, by rw [hstore, settle_success], rfl, step_of_run_clear husable hseq hrun⟩

theorem exec_sti (sr : Reg) (offset9 : BitVec 9) (s : State) : exec (.sti sr offset9) s =
    settle (storeAt (eaIndirect offset9 s).1 ((eaIndirect offset9 s).2.reg sr) (eaIndirect offset9 s).2) := rfl

/-- Settles O40: each of the three ends in a write of MCR, STI's in the state that its pointer read left. -/
theorem clearingRunHaltsAtTheNextCheck : Obligations.ClearingRunHaltsAtTheNextCheck := by
  intro s sr baseR offset9 offset6 husable hseq hwf hv
  refine ⟨fun ha => ?_, fun ha => ?_, fun ha => ?_⟩
  · simp only [exec, execSt, ha]
    exact storeAt_mcr_halts husable hseq hwf hv
  · rw [exec_sti, ha, eaIndirect, memRead_frame, State.setInq_reg]
    exact storeAt_mcr_halts husable hseq hwf hv
  · simp only [exec, execStr, ha]
    exact storeAt_mcr_halts husable hseq hwf hv

end Sys2Proof.Machine
end

section
/-! PROOFS. Batches of steps (40_execution_cycle.md R111): the first step of a batch either goes on to the rest of it, or
is the whole batch, whatever the quota. -/

namespace Sys2Proof.Machine

/-- Everything the first step of a batch can do. -/
theorem runBatch_succ_cases (s : State) :
    (∃ u, step s = .next u ∧ u.seq = .running ∧ ∀ quota, runBatch (quota + 1) s = runBatch quota u) ∨
      ((∀ u, step s = .next u → u.seq ≠ .running) ∧ ∀ quota, runBatch (quota + 1) s = step s) := by
  cases hstep : step s with
  | next u =>
    by_cases hrun : u.seq = .running
    · exact .inl ⟨u, rfl, hrun, fun _ => by simp only [runBatch, hstep, hrun, if_true]⟩
    · refine .inr ⟨fun v hv => ?_, fun _ => by simp only [runBatch, hstep, hrun, if_false]⟩
      cases hv
      exact hrun
  | fault reason => exact .inr ⟨nofun, fun _ => by simp only [runBatch, hstep]⟩
  | refused reason => exact .inr ⟨nofun, fun _ => by simp only [runBatch, hstep]⟩

theorem core_run_one (s : State) : core.run 1 s = step s := by
  change core.run 1 s = core.step s
  simp only [Host.Core.run]
  cases core.step s <;> rfl

theorem core_run_succ {s u : State} (h : step s = .next u) (k : Nat) : core.run (k + 1) s = core.run k u := by
  have hcore : core.step s = .next u := h
  simp only [Host.Core.run, hcore]

theorem runBatch_eq_run (quota : Nat) (s : State) : ∃ k ≤ quota, runBatch quota s = core.run k s := by
  induction quota generalizing s with
  | zero => exact ⟨0, Nat.le_refl 0, rfl⟩
  | succ quota ih =>
    rcases runBatch_succ_cases s with ⟨u, hstep, -, hbatch⟩ | ⟨-, hbatch⟩
    · obtain ⟨k, hk, hrest⟩ := ih u
      exact ⟨k + 1, Nat.succ_le_succ hk, by rw [hbatch, hrest, core_run_succ hstep]⟩
    · exact ⟨1, Nat.le_add_left 1 quota, (hbatch quota).trans (core_run_one s).symm⟩

/-- A batch that ends still Running has used up its quota. -/
theorem run_of_runBatch_running (quota : Nat) {s t : State} (h : runBatch quota s = .next t) (hrun : t.seq = .running) :
    core.run quota s = .next t := by
  induction quota generalizing s with
  | zero => exact h
  | succ quota ih =>
    rcases runBatch_succ_cases s with ⟨u, hstep, -, hbatch⟩ | ⟨hstop, hbatch⟩
    · exact (core_run_succ hstep quota).trans (ih ((hbatch quota).symm.trans h))
    · exact absurd hrun (hstop t ((hbatch quota).symm.trans h))

/-- A batch cut after `m` steps goes on with the rest of the quota, unless it has ended. -/
theorem runBatch_add (m n : Nat) {s t : State} (hs : s.seq = .running) (h : runBatch m s = .next t) :
    runBatch (m + n) s = if t.seq = .running then runBatch n t else .next t := by
  induction m generalizing s with
  | zero =>
    cases h
    rw [if_pos hs, Nat.zero_add]
  | succ m ih =>
    rw [Nat.succ_add]
    rcases runBatch_succ_cases s with ⟨u, -, hu, hbatch⟩ | ⟨hstop, hbatch⟩
    · rw [hbatch] at h ⊢
      exact ih hu h
    · rw [hbatch] at h ⊢
      rw [h, if_neg (hstop t h)]

/-- Settles O58, by induction on the quota: `runBatch_succ_cases` is the step of each of its three parts. -/
theorem batchesOnlyGroupSteps : Obligations.BatchesOnlyGroupSteps :=
  ⟨runBatch_eq_run, fun quota _ _ => run_of_runBatch_running quota, fun m n _ _ => runBatch_add m n⟩

end Sys2Proof.Machine
end

section
/-! PROOFS. ADD, AND and NOT (41_operate.md R120 to R122): each ends in `State.writeResult` of a value computed from the
state before it. -/

namespace Sys2Proof.Machine

/-- `writeResult` sets `dr` and the status register and nothing else (10_state.md R27). -/
theorem resultWritten_writeResult (s : State) (dr : Reg) (v : Word) : ResultWritten dr v s (s.writeResult dr v) :=
  ⟨State.writeResult_reg_same s dr v, ⟨rfl, setcc_flagsOf (s.setReg dr v) v⟩,
    fun _ hq => State.reg_setReg_other s hq v, rfl, fun _ => rfl, ⟨rfl, rfl⟩, ⟨rfl, rfl, rfl⟩⟩

theorem exec_add (dr sr1 sr2 : Reg) (s : State) :
    exec (.add dr sr1 sr2) s = .next (s.writeResult dr (s.reg sr1 + s.reg sr2)) := rfl

theorem exec_addi (dr sr1 : Reg) (imm5 : BitVec 5) (s : State) :
    exec (.addi dr sr1 imm5) s = .next (s.writeResult dr (s.reg sr1 + sext5 imm5)) := rfl

theorem exec_and (dr sr1 sr2 : Reg) (s : State) :
    exec (.and dr sr1 sr2) s = .next (s.writeResult dr (s.reg sr1 &&& s.reg sr2)) := rfl

theorem exec_andi (dr sr1 : Reg) (imm5 : BitVec 5) (s : State) :
    exec (.andi dr sr1 imm5) s = .next (s.writeResult dr (s.reg sr1 &&& sext5 imm5)) := rfl

theorem exec_not (dr sr : Reg) (s : State) :
    exec (.not dr sr) s = .next (s.writeResult dr (~~~s.reg sr)) := rfl

/-- Settles O15: both forms write their sum as a result. -/
theorem addWritesTheSum : Obligations.AddWritesTheSum :=
  fun s dr sr1 sr2 imm5 =>
    ⟨⟨_, exec_add dr sr1 sr2 s, resultWritten_writeResult s dr _⟩,
      ⟨_, exec_addi dr sr1 imm5 s, resultWritten_writeResult s dr _⟩⟩

/-- Settles O16: both forms write their conjunction as a result. -/
theorem andWritesTheConjunction : Obligations.AndWritesTheConjunction :=
  fun s dr sr1 sr2 imm5 =>
    ⟨⟨_, exec_and dr sr1 sr2 s, resultWritten_writeResult s dr _⟩,
      ⟨_, exec_andi dr sr1 imm5 s, resultWritten_writeResult s dr _⟩⟩

/-- Settles O17: NOT writes the complement as a result. -/
theorem notWritesTheComplement : Obligations.NotWritesTheComplement :=
  fun s dr sr => ⟨_, exec_not dr sr s, resultWritten_writeResult s dr _⟩

end Sys2Proof.Machine
end

section
/-! PROOFS. The words of the spec's examples (95_test_vectors.md). -/

namespace Sys2Proof.Machine

theorem decode_of_encode_eq {i : Instr} {w : Word} (hwf : i.wf = true) (hw : encode i = w) : decode w = i :=
  hw ▸ decodeOfEncode i hwf

/-- Settles O5: every word but 0xF120 is the canonical word of its instruction; 0xF120 is a TRAP x20 with a bit set that
no rule reads. -/
theorem specWordsDecode : Obligations.SpecWordsDecode := by
  have hgetc : decode 0xF120 = .trapGetc := decode_trap getcVector 0x1#4
  refine ⟨?_, ?_, ?_, ?_, ?_, ?_, ?_, ?_, ?_, ?_, ?_, hgetc, ?_⟩ <;> exact decode_of_encode_eq rfl rfl

end Sys2Proof.Machine
end

section
/-! PROOFS. Control transfer (42_control.md): BR, JMP, JSR and JSRR change `pc`, the last two R7 as well, and no other
instruction but TRAP changes `pc` (R134). -/

namespace Sys2Proof.Machine

/-! ### What a jump leaves unchanged -/

theorem setPc_frame (s : State) (target : Word) :
    SameRegs s (s.setPc target) ∧ (s.setPc target).cc = s.cc ∧ SameMemory s (s.setPc target) ∧
      SameQueues s (s.setPc target) ∧ SameSequencer s (s.setPc target) :=
  ⟨fun _ => rfl, rfl, fun _ => rfl, ⟨rfl, rfl⟩, ⟨rfl, rfl, rfl⟩⟩

theorem link_setPc_frame (s : State) (target : Word) :
    SameRegsBut 7 s (s.link.setPc target) ∧ (s.link.setPc target).cc = s.cc ∧ SameMemory s (s.link.setPc target) ∧
      SameQueues s (s.link.setPc target) ∧ SameSequencer s (s.link.setPc target) :=
  ⟨fun _ hq => State.reg_setReg_other s hq s.pc, rfl, fun _ => rfl, ⟨rfl, rfl⟩, ⟨rfl, rfl, rfl⟩⟩

theorem State.link_reg_seven (s : State) : s.link.reg 7 = s.pc :=
  State.reg_setReg_same s linkReg s.pc

/-! ### BR (R130) -/

theorem and_bne_zero_eq_or_bits : ∀ mask flags : BitVec 3, (mask &&& flags != 0#3) =
    ((mask.getLsbD 2 && flags.getLsbD 2) || (mask.getLsbD 1 && flags.getLsbD 1) ||
      (mask.getLsbD 0 && flags.getLsbD 0)) := by
  decide

/-- BR's test of the mask against `cc[2:0]`, flag by flag (D3, log 6). -/
theorem branchTaken_eq (s : State) (nzp : BitVec 3) : s.branchTaken nzp =
    ((nzp.getLsbD 2 && s.flagN) || (nzp.getLsbD 1 && s.flagZ) || (nzp.getLsbD 0 && s.flagP)) := by
  rw [State.branchTaken, and_bne_zero_eq_or_bits]
  simp [State.flagN, State.flagZ, State.flagP]

theorem branchTaken_zero (s : State) : s.branchTaken 0b000 = false := by
  simp [branchTaken_eq]

theorem branchTaken_all {s : State} (hcc : s.ccOneHot) : s.branchTaken 0b111 = true := by
  rcases hcc with h | h | h <;> rw [State.branchTaken, h] <;> decide

theorem exec_br (nzp : BitVec 3) (offset9 : BitVec 9) (s : State) : exec (.br nzp offset9) s =
    .next (s.setPc (if s.branchTaken nzp then s.pc + sext9 offset9 else s.pc)) := by
  cases htaken : s.branchTaken nzp <;> simp only [exec, execBr, htaken] <;> rfl

/-- Settles O21: BR moves `pc` alone, and its test is flag by flag the requested condition. -/
theorem branchTakenIffConditionMet : Obligations.BranchTakenIffConditionMet := fun s nzp offset9 =>
  ⟨_, exec_br nzp offset9 s, by rw [State.setPc_pc, branchTaken_eq], setPc_frame s _⟩

/-- A field that begins at or above bit `k` of a word below `2 ^ k` is zero. -/
theorem extractLsb'_eq_zero_of_lt {w : Word} {k start : Nat} (hw : w.toNat < 2 ^ k) (hstart : k ≤ start) (n : Nat) :
    w.extractLsb' start n = 0#n := by
  have hlt : w.toNat < 2 ^ start := hw.trans_le (Nat.pow_le_pow_right (by decide) hstart)
  apply BitVec.eq_of_toNat_eq
  simp [Nat.shiftRight_eq_div_pow, Nat.div_eq_of_lt hlt]

/-- The words 0x0000 to 0x01FF are the BRs that request no condition (30_encoding.md R87). -/
theorem decode_of_lt_0x0200 {w : Word} (hw : w < 0x0200) : decode w = .br 0b000 (offset9Field w) := by
  have hlt : w.toNat < 2 ^ 9 := hw
  have hop : opField w = 0x0#4 := extractLsb'_eq_zero_of_lt hlt (by decide) 4
  have hmask : field11to9 w = 0b000 := extractLsb'_eq_zero_of_lt hlt (by decide) 3
  rw [decode_op0 hop, hmask]

/-- Settles O22: mask 000 meets no flag, and mask 111 meets the one flag that a one-hot condition code has set. -/
theorem branchMaskExtremes : Obligations.BranchMaskExtremes := by
  refine ⟨fun w hw s => ?_, fun s offset9 hcc => ?_⟩
  · rw [decode_of_lt_0x0200 hw, exec_br, branchTaken_zero]
    rfl
  · rw [exec_br, branchTaken_all hcc]
    rfl

/-! ### JMP, JSR and JSRR (R131 to R133) -/

theorem exec_jmp (baseR : Reg) (s : State) : exec (.jmp baseR) s = .next (s.setPc (s.reg baseR)) := rfl

theorem exec_jsr (offset11 : BitVec 11) (s : State) :
    exec (.jsr offset11) s = .next (s.link.setPc (s.pc + sext11 offset11)) := rfl

theorem exec_jsrr (baseR : Reg) (s : State) : exec (.jsrr baseR) s = .next (s.link.setPc (s.link.reg baseR)) := rfl

/-- Settles O23: JMP is one write of `pc`. -/
theorem jumpGoesToTheBaseRegister : Obligations.JumpGoesToTheBaseRegister := fun s baseR =>
  ⟨_, exec_jmp baseR s, rfl, setPc_frame s _⟩

/-- Settles O24: the offset is added to the `pc` that R7 has taken. -/
theorem jsrLinksAndBranches : Obligations.JsrLinksAndBranches := fun s offset11 =>
  ⟨_, exec_jsr offset11 s, s.link_reg_seven, rfl, link_setPc_frame s _⟩

/-- Settles O25: the base register is read from the state after the link, where R7 holds the return address. -/
theorem jsrrLinksThenReadsTheBase : Obligations.JsrrLinksThenReadsTheBase := fun s baseR =>
  ⟨_, exec_jsrr baseR s, s.link_reg_seven, s.link_reg baseR, link_setPc_frame s _⟩

/-! ### The other instructions (R134) -/

/-- Settles O48: the effects that write `pc` belong to the transfers, but for the wait's rewind, which needs an empty
queue. -/
theorem onlyTransfersWriteThePC : Obligations.OnlyTransfersWriteThePC := by
  intro i s t h hrun htransfer hpending
  cases exec_effect h with
  | jump v his => exact absurd (his.symm.trans htransfer) (by decide)
  | linkJump v his _ => exact absurd (his.symm.trans htransfer) (by decide)
  | wait hgetc hq => exact absurd hq (hpending hgetc)
  | fault k reason _ _ _ => exact absurd rfl (hrun reason)
  | result | takeCode | output | store => rfl

end Sys2Proof.Machine
end

section
/-! PROOFS. Loads, stores and LEA (43_load_store.md): what the read of a load and the write of a store leave, said once
for each; LD, LDI and LDR, and ST, STI and STR, differ only in the address. -/

namespace Sys2Proof.Machine

/-! ### LEA (R144) -/

theorem exec_lea (dr : Reg) (offset9 : BitVec 9) (s : State) :
    exec (.lea dr offset9) s = .next (s.writeResult dr (s.pc + sext9 offset9)) := rfl

/-- Settles O18: LEA writes the address itself as a result. -/
theorem leaWritesTheAddress : Obligations.LeaWritesTheAddress := fun s dr offset9 =>
  ⟨_, exec_lea dr offset9 s, resultWritten_writeResult s dr _⟩

/-! ### Loads (R141 to R143) -/

/-- A result written after reads that left the input queue as `q`. -/
theorem loadedInto_writeResult (s : State) (q : List Word) (dr : Reg) (v : Word) :
    LoadedInto dr v q s ((s.setInq q).writeResult dr v) := by
  obtain ⟨hdr, hcc, hregs, hpc, hmem, ⟨hinq, hout⟩, hseq⟩ := resultWritten_writeResult (s.setInq q) dr v
  exact ⟨hdr, hcc, hregs, hpc, hmem, hinq, hout, hseq⟩

/-- A load completes at every address, with the word and the queue that its read gives. -/
theorem loadFrom_loads (dr : Reg) (a : Word) (s : State) :
    ∃ t, settle (loadFrom dr a s) = .next t ∧ LoadedInto dr (memRead a s).1 (memRead a s).2.inq s t := by
  rw [loadFrom_eq, settle_success, memRead_frame]
  exact ⟨_, rfl, loadedInto_writeResult s _ dr _⟩

theorem exec_ld (dr : Reg) (offset9 : BitVec 9) (s : State) :
    exec (.ld dr offset9) s = settle (loadFrom dr (s.pc + sext9 offset9) s) := rfl

theorem exec_ldr (dr baseR : Reg) (offset6 : BitVec 6) (s : State) :
    exec (.ldr dr baseR offset6) s = settle (loadFrom dr (s.reg baseR + sext6 offset6) s) := rfl

theorem exec_ldi (dr : Reg) (offset9 : BitVec 9) (s : State) : exec (.ldi dr offset9) s =
    settle (loadFrom dr (eaIndirect offset9 s).1 (eaIndirect offset9 s).2) := rfl

/-- The pointer read of an indirect instruction leaves the state as it was but for the input queue. -/
theorem eaIndirect_state {offset9 : BitVec 9} {s s' : State} {p : Word} (h : eaIndirect offset9 s = (p, s')) :
    ∃ q, s' = s.setInq q := by
  have hframe : (eaIndirect offset9 s).2 = s.setInq (eaIndirect offset9 s).2.inq := memRead_frame _ s
  rw [h] at hframe
  exact ⟨_, hframe⟩

/-- Settles O26: LD is a load at `pc + sext9 offset9`. -/
theorem ldLoadsPCRelative : Obligations.LdLoadsPCRelative := fun s dr offset9 => by
  rw [exec_ld]
  exact loadFrom_loads dr _ s

/-- Settles O28: LDR is a load at `x[baseR] + sext6 offset6`, an address taken before `dr` is written. -/
theorem ldrLoadsBaseOffset : Obligations.LdrLoadsBaseOffset := fun s dr baseR offset6 => by
  rw [exec_ldr]
  exact loadFrom_loads dr _ s

/-- Settles O27: LDI is a load at the pointer, in the state that the pointer read left; that state differs from the first
in the input queue alone, which `LoadedInto` does not compare. -/
theorem ldiLoadsThroughThePointer : Obligations.LdiLoadsThroughThePointer := by
  intro s s' dr offset9 p hread
  have hptr : eaIndirect offset9 s = (p, s') := hread
  obtain ⟨q, rfl⟩ := eaIndirect_state hptr
  rw [exec_ldi, hptr]
  exact loadFrom_loads dr p (s.setInq q)

/-! ### Stores (R145 to R147) -/

theorem storedAt_putOut (v : Word) (s : State) : StoredAt addrDDR v s.inq s (s.putOut v) :=
  ⟨fun _ => rfl, rfl, rfl, rfl, ⟨rfl, rfl, rfl⟩, by rw [if_pos rfl]; exact ⟨rfl, fun _ => rfl⟩⟩

theorem storedAt_put {a : Word} {s : State} (ha : a ≠ addrDDR) (hwf : s.mem.wf = true) (v : Word) :
    StoredAt a v s.inq s (s.setMem (s.mem.put a.toNat v)) := by
  refine ⟨fun _ => rfl, rfl, rfl, rfl, ⟨rfl, rfl, rfl⟩, ?_⟩
  rw [if_neg ha]
  exact ⟨rfl, Memory.get_put_same hwf _ v, fun b hb => Memory.get_put_other s.mem hb v⟩

/-- A store completes at every address but the three read-only ones, and faults at those (20_memory.md R43). -/
theorem storeAt_stores_or_faults (a v : Word) (s : State) :
    (s.mem.wf = true → ¬ readOnlyAddress a →
      ∃ t, settle (storeAt a v s) = .next t ∧ StoredAt a v s.inq s t) ∧
    (readOnlyAddress a →
      ∃ t, settle (storeAt a v s) = .next t ∧ FaultedWith (.readOnlyDeviceWrite a) s.inq s t) := by
  rcases storeAt_cases a v s with ⟨hro, h⟩ | ⟨rfl, h⟩ | ⟨hplain, h⟩ <;> rw [h]
  · exact ⟨fun _ hnro => absurd hro hnro, fun _ => ⟨_, rfl, rfl, rfl, rfl, rfl, rfl⟩⟩
  · exact ⟨fun _ _ => ⟨_, rfl, storedAt_putOut v s⟩, fun hro => absurd rfl (readOnlyAddress_ne_ddr hro)⟩
  · rw [deviceAddress_iff, not_or, not_or, not_or] at hplain
    obtain ⟨hkbsr, hkbdr, hdsr, hddr⟩ := hplain
    exact ⟨fun hwf _ => ⟨_, rfl, storedAt_put hddr hwf v⟩, fun hro => by rcases hro with h | h | h <;> contradiction⟩

theorem exec_st (sr : Reg) (offset9 : BitVec 9) (s : State) :
    exec (.st sr offset9) s = settle (storeAt (eaPCRelative offset9 s) (s.reg sr) s) := rfl

theorem exec_str (sr baseR : Reg) (offset6 : BitVec 6) (s : State) :
    exec (.str sr baseR offset6) s = settle (storeAt (eaBaseOffset baseR offset6 s) (s.reg sr) s) := rfl

/-- Settles O29: ST is a store at the PC-relative address. -/
theorem stStoresPCRelative : Obligations.StStoresPCRelative := fun s sr offset9 => by
  rw [exec_st]
  exact storeAt_stores_or_faults _ _ s

/-- Settles O31: STR is a store at the base+offset address. -/
theorem strStoresBaseOffset : Obligations.StrStoresBaseOffset := fun s sr baseR offset6 => by
  rw [exec_str]
  exact storeAt_stores_or_faults _ _ s

/-- Settles O30: STI is a store at the pointer, in the state that the pointer read left; the registers, memory and output
of that state are those before the read. -/
theorem stiStoresThroughThePointer : Obligations.StiStoresThroughThePointer := by
  intro s s' sr offset9 p hptr
  obtain ⟨q, rfl⟩ := eaIndirect_state hptr
  rw [exec_sti, hptr]
  exact storeAt_stores_or_faults p (s.reg sr) (s.setInq q)

end Sys2Proof.Machine
end

section
/-! PROOFS. TRAP, RTI and the reserved opcode (44_trap_and_unimplemented.md). -/

namespace Sys2Proof.Machine

/-! ### TRAP (R160 to R162) -/

/-- A vector other than 0x20 takes the link and goes to the word of its cell. -/
theorem exec_trap {trapvect8 : BitVec 8} (hvector : trapvect8 ≠ getcVector) (s : State) :
    exec (.trap trapvect8) s = .next (s.link.setPc (s.mem.get trapvect8.toNat)) := by
  have hentry : exec (.trap trapvect8) s = settle (.success (s.trapEntry (eaVector trapvect8))) :=
    congrArg settle (if_neg hvector)
  rw [hentry, trapEntry_eq, settle_success, eaVector, toNat_zext8]

theorem exec_trapGetc (s : State) : exec .trapGetc s = settle (getc s) := rfl

/-- Settles O32: trap entry is a link and a write of `pc`, and both terms of TRAP x20 mean its x20 path. -/
theorem trapEntersTheServiceRoutine : Obligations.TrapEntersTheServiceRoutine := by
  refine fun s trapvect8 => ⟨fun hvector => ?_, fun hgetc => ?_⟩
  · exact ⟨_, exec_trap hvector s, s.link_reg_seven, rfl, link_setPc_frame s _⟩
  · have his : (Instr.trap trapvect8).isGetc = true := beq_iff_eq.2 hgetc
    rw [exec_of_isGetc his, exec_trapGetc]

/-- Settles O33: the x20 path takes the head of the queue, or waits where the queue is empty. -/
theorem getcTakesOneCodeOrWaits : Obligations.GetcTakesOneCodeOrWaits := by
  refine fun s => ⟨fun code rest hq => ?_, fun hq => ?_⟩
  · rw [exec_trapGetc, getc_cons hq, settle_success]
    exact ⟨_, rfl, State.reg_setReg_same _ 0 code, rfl, fun _ hr => State.reg_setReg_other _ hr code, rfl, rfl,
      fun _ => rfl, rfl, ⟨rfl, rfl, rfl⟩⟩
  · rw [exec_trapGetc, getc_nil hq, settle_retry]
    exact ⟨_, rfl, rfl, rfl, rfl, fun _ => rfl, rfl, fun _ => rfl, ⟨rfl, rfl⟩, rfl⟩

/-! ### RTI and the reserved opcode (R164, R165; the recorded word is D12, log 12) -/

theorem faultedWith_enterFault (reason : Fault) (s : State) : FaultedWith reason s.inq s (s.enterFault reason) :=
  ⟨rfl, rfl, rfl, rfl, rfl⟩

theorem exec_rti (low12 : BitVec 12) (s : State) :
    exec (.rti low12) s = .next (s.enterFault (.unimplementedRTI (0x8#4 ++ low12))) := rfl

theorem exec_reserved (low12 : BitVec 12) (s : State) :
    exec (.reserved low12) s = .next (s.enterFault (.unimplementedReserved (0xD#4 ++ low12))) := rfl

/-- The reason records the fetched word itself: the opcode and the twelve bits below it are all of it. -/
theorem exec_decode_op8 {w : Word} (hop : opField w = 0x8#4) (s : State) :
    exec (decode w) s = .next (s.enterFault (.unimplementedRTI w)) := by
  rw [decode_op8 hop, exec_rti, ← hop, opField_append_low12Field]

theorem exec_decode_opD {w : Word} (hop : opField w = 0xD#4) (s : State) :
    exec (decode w) s = .next (s.enterFault (.unimplementedReserved w)) := by
  rw [decode_opD hop, exec_reserved, ← hop, opField_append_low12Field]

/-- Settles O34: both opcodes enter their fault, and a ready machine's step executes the word it fetches. -/
theorem unimplementedOpcodesFault : Obligations.UnimplementedOpcodesFault := by
  refine ⟨fun s low12 => ⟨?_, ?_⟩, fun s w hready hword => ?_⟩
  · exact ⟨_, exec_rti low12 s, faultedWith_enterFault _ s⟩
  · exact ⟨_, exec_reserved low12 s, faultedWith_enterFault _ s⟩
  · have hstep : step s = exec (decode w) (fetch s).2 := by
      rw [step_of_ready hready, ← hword, fetch_eq]
    rw [hstep]
    exact ⟨fun hop => ⟨_, exec_decode_op8 hop _, State.enterFault_seq _ _⟩,
      fun hop => ⟨_, exec_decode_opD hop _, State.enterFault_seq _ _⟩⟩

end Sys2Proof.Machine
end

section
/-! PROOFS. The loader (70_reset_and_hazards.md R205 to R209): what each stream answers, which cells the copy writes,
and the image writer of R211. -/

namespace Sys2Proof.Machine

/-! ### Loads that do not succeed (R207 to R209) -/

/-- What every load but a successful one makes of a usable machine. -/
theorem madeUnusable_freeMemory (s : State) : MadeUnusable s (s.freeMemory.setUsable false) :=
  ⟨rfl, fun _ => rfl, rfl, rfl, ⟨rfl, rfl⟩, rfl, rfl⟩

theorem load_of_unusable {s : State} (h : s.usable = false) (limit : Nat) (bytes : List Byte) :
    load limit bytes s = (.refused, s) := by
  simp [load, h]

/-- A stream without a whole base word, or with half a payload word, is refused (R208). -/
theorem load_malformed {bytes : List Byte} {s : State} (husable : s.usable = true)
    (hbad : bytes.length < 2 ∨ bytes.length % 2 = 1) (limit : Nat) :
    load limit bytes s = (.refused, s.freeMemory.setUsable false) := by
  match bytes with
  | [] | [_] => simp only [load, husable, if_true]
  | hi :: lo :: payload =>
    have hodd : payload.length % 2 = 1 := by
      simp only [List.length_cons] at hbad
      omega
    simp only [load, husable, hodd, if_true]

section
variable {limit n : Nat} {hi lo : Byte} {payload : List Byte} {s : State}

/-- A whole number of payload words: the capacity check comes first, then the device check (R206, R209). -/
theorem load_words (husable : s.usable = true) (hlen : payload.length = 2 * n) :
    load limit (hi :: lo :: payload) s =
      if limit < (hi ++ lo : Word).toNat + n then (.inputTooLarge, s.freeMemory.setUsable false)
      else if coversDevice (hi ++ lo : Word).toNat n then (.refused, s.freeMemory.setUsable false)
      else (.success, s.setMem (loadWords (hi ++ lo : Word).toNat payload s.mem)) := by
  have heven : ¬ payload.length % 2 = 1 := by omega
  have hhalf : payload.length / 2 = n := by omega
  simp only [load, husable, if_true, heven, if_false, hhalf, imageWord]

theorem load_over_bound (husable : s.usable = true) (hlen : payload.length = 2 * n)
    (hover : limit < (hi ++ lo : Word).toNat + n) :
    load limit (hi :: lo :: payload) s = (.inputTooLarge, s.freeMemory.setUsable false) := by
  rw [load_words husable hlen, if_pos hover]

theorem load_over_device (husable : s.usable = true) (hlen : payload.length = 2 * n)
    (hfit : (hi ++ lo : Word).toNat + n ≤ limit) (hcover : coversDevice (hi ++ lo : Word).toNat n = true) :
    load limit (hi :: lo :: payload) s = (.refused, s.freeMemory.setUsable false) := by
  rw [load_words husable hlen, if_neg hfit.not_gt, if_pos hcover]

theorem load_copies (husable : s.usable = true) (hlen : payload.length = 2 * n)
    (hfit : (hi ++ lo : Word).toNat + n ≤ limit) (hcover : coversDevice (hi ++ lo : Word).toNat n = false) :
    load limit (hi :: lo :: payload) s = (.success, s.setMem (loadWords (hi ++ lo : Word).toNat payload s.mem)) := by
  rw [load_words husable hlen, if_neg hfit.not_gt, if_neg (Bool.eq_false_iff.1 hcover)]

end

theorem coversDevice_of_mem {base n : Nat} {d : Word} (hd : deviceAddress d) (hlow : base ≤ d.toNat)
    (hhigh : d.toNat < base + n) : coversDevice base n = true := by
  by_contra hnot
  exact coversDevice_eq_false.1 (Bool.eq_false_iff.2 hnot) d hd ⟨hlow, hhigh⟩

/-- Settles O55: the capacity check is the first of the two. -/
theorem loadOverTheBoundIsTooLarge : Obligations.LoadOverTheBoundIsTooLarge :=
  fun _ _ _ _ _ s husable hlen hover => ⟨_, load_over_bound husable hlen hover, madeUnusable_freeMemory s⟩

/-- Settles O56: the malformed streams, and those that pass the capacity check and fail the device check. -/
theorem malformedOrDeviceLoadsAreRefused : Obligations.MalformedOrDeviceLoadsAreRefused := by
  refine fun limit bytes s husable => ⟨fun hbad => ?_, fun n hi lo payload d hbytes hlen hfit hd hlow hhigh => ?_⟩
  · exact ⟨_, load_malformed husable hbad limit, madeUnusable_freeMemory s⟩
  · subst hbytes
    exact ⟨_, load_over_device husable hlen hfit (coversDevice_of_mem hd hlow hhigh), madeUnusable_freeMemory s⟩

/-! ### The copy (R205, R206) -/

/-- The k-th word of a payload, big-endian. -/
def payloadWord (payload : List Byte) (k : Nat) : Word := payload.getD (2 * k) 0 ++ payload.getD (2 * k + 1) 0

@[simp] theorem payloadWord_cons_zero (hi lo : Byte) (rest : List Byte) :
    payloadWord (hi :: lo :: rest) 0 = imageWord hi lo := rfl

@[simp] theorem payloadWord_cons_succ (hi lo : Byte) (rest : List Byte) (k : Nat) :
    payloadWord (hi :: lo :: rest) (k + 1) = payloadWord rest k := rfl

/-- The copy leaves every cell outside its range as it was. -/
theorem Memory.get_loadWords_outside (payload : List Byte) {base a : Nat} (m : Memory)
    (ha : a < base ∨ base + payload.length / 2 ≤ a) : (loadWords base payload m).get a = m.get a := by
  match payload with
  | [] | [_] => rfl
  | hi :: lo :: rest =>
    simp only [List.length_cons] at ha
    by_cases hbase : a = base
    · omega
    · exact (Memory.get_loadWords_outside rest _ (by omega)).trans (Memory.get_put_other m hbase _)

/-- The copy puts the k-th payload word into the k-th cell of its range. -/
theorem Memory.get_loadWords (payload : List Byte) {base k : Nat} {m : Memory} (hm : m.wf = true)
    (hfit : base + payload.length / 2 ≤ 65536) (hk : k < payload.length / 2) :
    (loadWords base payload m).get (base + k) = payloadWord payload k := by
  match payload, k with
  | [], _ | [_], _ => simp at hk
  | hi :: lo :: rest, 0 =>
    rw [payloadWord_cons_zero]
    exact (Memory.get_loadWords_outside rest _ (.inl (Nat.lt_succ_self base))).trans
      (Memory.get_put_same hm base (imageWord hi lo))
  | hi :: lo :: rest, k + 1 =>
    simp only [List.length_cons] at hfit hk
    have htail := Memory.get_loadWords rest (base := base + 1) (k := k)
      (Memory.wf_put hm (a := base) (by omega) (imageWord hi lo)) (by omega) (by omega)
    rw [payloadWord_cons_succ, ← htail, Nat.add_right_comm]
    rfl

/-- Settles O54: past both checks the load is the copy, which writes the cells of its range and no other. -/
theorem loadCopiesThePayload : Obligations.LoadCopiesThePayload := by
  intro limit n hi lo payload s husable hwf hlimit hlen hfit hdevices
  have hhalf : payload.length / 2 = n := by omega
  have hcover : coversDevice (hi ++ lo : Word).toNat n = false :=
    coversDevice_eq_false.2 fun d hd => by have := hdevices d hd; omega
  refine ⟨_, load_copies husable hlen hfit hcover, fun k hk => ?_, fun a ha => ?_, fun _ => rfl, rfl, rfl, ⟨rfl, rfl⟩,
    ⟨rfl, rfl, rfl⟩⟩
  · exact Memory.get_loadWords payload hwf (hhalf ▸ hfit.trans hlimit) (hhalf ▸ hk)
  · exact Memory.get_loadWords_outside payload s.mem (hhalf ▸ ha)

/-! ### The image writer (R211) -/

/-- The two bytes of a word make the word. -/
theorem imageWord_bytes (w : Word) : imageWord (w.extractLsb' 8 8) (w.extractLsb' 0 8) = w :=
  (BitVec.extractLsb'_append_extractLsb'_eq_extractLsb' rfl).trans BitVec.extractLsb'_eq_self

theorem cellBytes_succ (m : Memory) (a n : Nat) :
    cellBytes m a (n + 1) =
      (m.get a).extractLsb' 8 8 :: (m.get a).extractLsb' 0 8 :: cellBytes m (a + 1) n := rfl

theorem length_cellBytes (m : Memory) (a n : Nat) : (cellBytes m a n).length = 2 * n := by
  induction n generalizing a with
  | zero => rfl
  | succ n ih => rw [cellBytes_succ, List.length_cons, List.length_cons, ih, Nat.mul_succ]

/-- The k-th word of the written payload is the k-th cell. -/
theorem payloadWord_cellBytes (m : Memory) {a n k : Nat} (hk : k < n) :
    payloadWord (cellBytes m a n) k = m.get (a + k) := by
  induction n generalizing a k with
  | zero => exact absurd hk (Nat.not_lt_zero k)
  | succ n ih =>
    rw [cellBytes_succ]
    cases k with
    | zero => exact (payloadWord_cons_zero _ _ _).trans (imageWord_bytes (m.get a))
    | succ k => rw [payloadWord_cons_succ, ih (Nat.lt_of_succ_lt_succ hk), Nat.add_right_comm, Nat.add_assoc]

/-- Settles O57: the image begins with the base and goes on with the cells, and the load copies it back. -/
theorem imageRoundTrip : Obligations.ImageRoundTrip := by
  intro limit n base m s husable hwf hlimit hfit hdevices
  have hbase : (base.extractLsb' 8 8 ++ base.extractLsb' 0 8 : Word) = base := imageWord_bytes base
  obtain ⟨t, hload, hcells, -⟩ := loadCopiesThePayload limit n (base.extractLsb' 8 8) (base.extractLsb' 0 8)
    (cellBytes m base.toNat n) s husable hwf hlimit (length_cellBytes m base.toNat n) (by rwa [hbase]) (by rwa [hbase])
  rw [hbase] at hcells
  exact ⟨t, hload, fun k hk => (hcells k hk).trans (payloadWord_cellBytes m hk)⟩

end Sys2Proof.Machine
end

section
/-! PROOFS. Host moves and the usable mark (70_reset_and_hazards.md R201, R207, R212). -/

namespace Sys2Proof.Machine

/-- Settles O43: every host move keeps the invariant. -/
theorem hostMovesKeepTheInvariant : Obligations.HostMovesKeepTheInvariant :=
  fun _ m _ hp h => hostMove_inv hp m h

/-! ### Reset (R201) -/

theorem hostReset_reg (g : Vector Word 8) (s : State) (r : Reg) : (hostReset g s).reg r = g[r.toNat]'r.isLt := rfl

/-- After reset the status register says zero (D3, log 6). -/
theorem hostReset_flags (g : Vector Word 8) (s : State) :
    (hostReset g s).flagZ = true ∧ (hostReset g s).flagN = false ∧ (hostReset g s).flagP = false := by
  have hcc : (hostReset g s).cc = 0x0002 := rfl
  simp only [State.flagZ, State.flagN, State.flagP, hcc]
  decide

/-- After reset no cell is listed (10_state.md R37). -/
theorem hostReset_mem_get (g : Vector Word 8) (s : State) (a : Nat) :
    (hostReset g s).mem.get a = if a = 0xFFFE then 0x8000 else 0x0000 := rfl

/-- Settles O52: reset is a construction around the queues it finds. -/
theorem resetReturnsToTheInitialState : Obligations.ResetReturnsToTheInitialState :=
  fun g s =>
    have ⟨hz, hn, hp⟩ := hostReset_flags g s
    ⟨rfl, hz, hn, hp, hostReset_reg g s, hostReset_mem_get g s, rfl, rfl, rfl, ⟨rfl, rfl⟩⟩

/-! ### An unusable machine (R207; D14, log 17) -/

theorem step_of_unusable {s : State} (h : s.usable = false) : step s = .refused .unusableUntilReset := by
  simp [step, cpuStep, h]

theorem State.meaningful_of_unusable {s : State} (h : s.usable = false) : s.meaningful = false := by
  cases hq : s.seq with
  | running | awaitingInput | halted => simp only [State.meaningful, hq, h]
  | faulted reason => exact State.meaningful_of_faulted hq

@[simp] theorem notify_usable (s : State) : (notify s).usable = s.usable := by
  cases hretry : s.retry with
  | true => rw [notify_of_retry_set hretry]; rfl
  | false => rw [notify_of_retry_clear hretry]

/-- Only a reset makes an unusable machine usable. -/
theorem hostMove_unusable (p : Config.Params) {m : HostMove} (hm : m ≠ .reset) {s : State} (h : s.usable = false) :
    (hostMove p m s).usable = false := by
  cases m with
  | enqueue code => exact h
  | notify => exact (notify_usable s).trans h
  | reset => exact absurd rfl hm
  | load bytes => exact (congrArg (·.2.usable) (load_of_unusable h p.loaderLimit bytes)).trans h

/-- Settles O9: steps, observations and loads all look at the usable mark, and only a reset sets it. -/
theorem unusableMachineRefusesUntilReset : Obligations.UnusableMachineRefusesUntilReset := by
  intro s h
  have hmeans : s.meaningful = false := State.meaningful_of_unusable h
  refine ⟨step_of_unusable h, fun a => ?_, fun r => ?_, ?_, ?_, load_of_unusable h,
    fun p m hm => hostMove_unusable p hm h, fun _ => rfl⟩
  · simp [observeCell, hmeans]
  · simp [observeReg, hmeans]
  · simp [observeControl, hmeans]
  · simp [observeOut, h]

end Sys2Proof.Machine
end
